-- ==== Sys2Proof/Word.lean ====
section
/-! DEFINITION. The word types of fp_num CORE and the symbol a string is delivered in. Every quantity
of the core is an unsigned integer and bit 0 is the least significant bit of each (rule R10). -/

namespace Sys2Proof

/-- A 32-bit operand, result or working register: WORD_W and NUM_W of rule R6. -/
abbrev Word := BitVec 32

/-- One byte of a string or of the output buffer (rules R54, R58). -/
abbrev Byte := BitVec 8

/-- The wide result register RW and a ROM numerator: ROMNUM_W of rule R6. -/
abbrev Wide := BitVec 128

/-- The command word `CW` with `op` in bits 68..65, `c` in bit 64, `a` in 63..32 and `b` in 31..0 (rule R70). -/
abbrev CommandWord := BitVec 69

/-- A symbol as it stands on the ports, `sym_end` in bit 8 and `sym_data` in bits 7..0 (rule R79). -/
abbrev SymbolWord := BitVec 9

/-- One element of a string delivery (rule R58): `CH(b)` or `END`. -/
inductive Symbol where
  /-- `CH(b)`: one byte of the string. -/
  | ch (b : Byte)
  /-- `END`: the string is over. -/
  | endOfString
  deriving DecidableEq, Repr

end Sys2Proof
end

