-- ==== Sys2Proof/Config.lean ====
section
/-! DEFINITION. The implementation parameters of rule R6. Every one has a fixed value for this hardware and
none is left open, so this file holds no free value. -/

namespace Sys2Proof.Config

/-- WORD_W: width of a PackedValue and of the bit-primitive word. -/
abbrev wordWidth : Nat := 32

/-- SIGN_POS: bit position of the sign field. -/
abbrev signPos : Nat := 31

/-- EXP_W: width of the exponent field. -/
abbrev expWidth : Nat := 8

/-- EXP_LSB: lowest bit of the exponent field. -/
abbrev expLsb : Nat := 23

/-- SIG_W: width of the significand field. -/
abbrev sigWidth : Nat := 23

/-- SIG_MASK: mask of the significand field. -/
abbrev sigMask : Word := 0x007FFFFF#32

/-- CAP: the most doubling iterations of the extractor, tied to the significand width. -/
abbrev cap : Nat := sigWidth

/-- ROM_LO: first valid index of the lookup ROM. -/
abbrev romLo : Nat := 1

/-- ROM_HI: last valid index of the lookup ROM. -/
abbrev romHi : Nat := 23

/-- MAX_FRAC_DIGITS: the most fractional digits the parser accepts. -/
abbrev maxFracDigits : Nat := 9

/-- OBUF_BYTES: size of the output buffer. -/
abbrev obufBytes : Nat := 25

end Sys2Proof.Config
end

