-- ==== Sys2Proof/Syntax.lean ====
section
/-! DEFINITION. The commands of the core, one constructor for each row of spec/opcode_table.json: the eleven
operations of rule R72 and the five reserved opcodes of rule R73. A command always carries all of `a`, `b` and
`c`, because step ACCEPT latches the ports an operation does not use as well (rule R74). Each constructor's
arguments stand in the order a, b, c under the names rule R71 gives their use. -/

namespace Sys2Proof

inductive Instr where
  /-- SETBIT word, n, value (rule R103). -/
  | setbit (word n : Word) (value : Bool)
  /-- GETBIT word, n (rule R104). -/
  | getbit (word n : Word) (c : Bool)
  /-- REVLOW word, count (rule R105). -/
  | revlow (word count : Word) (c : Bool)
  /-- VALIDATE "string" (rule R124): the string follows as symbols. -/
  | validate (a b : Word) (c : Bool)
  /-- PARSE "string" (rule R127): the string follows as symbols. -/
  | parse (a b : Word) (c : Bool)
  /-- LOOKUP exponent (rule R152). -/
  | lookup (index b : Word) (c : Bool)
  /-- EXTRACT digit_count, numerator (rule R162). -/
  | extract (digitCount numerator : Word) (c : Bool)
  /-- PACK exponent, significand, sign (rule R182). -/
  | pack (exponent significand : Word) (sign : Bool)
  /-- UNPACK word (rule R183). -/
  | unpack (word b : Word) (c : Bool)
  /-- ENCODE "string" (rule R190): the string follows as symbols. -/
  | encode (a b : Word) (c : Bool)
  /-- DECODE word (rule R194). -/
  | decode (word b : Word) (c : Bool)
  /-- Reserved opcode 0x0 (rule R73). -/
  | reserved0 (a b : Word) (c : Bool)
  /-- Reserved opcode 0xC (rule R73). -/
  | reservedC (a b : Word) (c : Bool)
  /-- Reserved opcode 0xD (rule R73). -/
  | reservedD (a b : Word) (c : Bool)
  /-- Reserved opcode 0xE (rule R73). -/
  | reservedE (a b : Word) (c : Bool)
  /-- Reserved opcode 0xF (rule R73). -/
  | reservedF (a b : Word) (c : Bool)
  deriving DecidableEq, Repr

end Sys2Proof
end

