-- ==== Sys2Proof/WellFormed.lean ====
section
/-! DEFINITION. When a command is well formed: its opcode selects an operation (rule R73) and each operand that
"must be" in a range is in it (rule R71). An ill-formed command still decodes and still runs: the core accepts it
and completes it with a refusal code (rule R221), so no meaning below assumes well-formedness. And when the
delivery of a string is well formed: its characters, then exactly one END, then nothing (rule R58). -/

namespace Sys2Proof

/-- The operand ranges of rule R71 and the reserved opcodes of rule R73; all 32 bits of an operand are compared. -/
def Instr.wellFormed : Instr → Bool
  | .setbit _ n _ => decide (n.toNat ≤ 31)
  | .getbit _ n _ => decide (n.toNat ≤ 31)
  | .revlow _ count _ => decide (count.toNat ≤ 32)
  | .validate _ _ _ => true
  | .parse _ _ _ => true
  | .lookup _ _ _ => true
  | .extract d n _ => decide (d.toNat ≤ Config.maxFracDigits) && decide (n.toNat < 10 ^ d.toNat)
  | .pack e g _ => decide (e.toNat < 2 ^ Config.expWidth) && decide (g.toNat < 2 ^ Config.sigWidth)
  | .unpack _ _ _ => true
  | .encode _ _ _ => true
  | .decode _ _ _ => true
  | .reserved0 _ _ _ => false
  | .reservedC _ _ _ => false
  | .reservedD _ _ _ => false
  | .reservedE _ _ _ => false
  | .reservedF _ _ _ => false

/-- A string delivery of rule R58: `CH(s[0]), …, CH(s[L-1]), END`, exactly one END and nothing after it. -/
def Symbol.wellFormedDelivery : List Symbol → Bool
  | [] => false
  | .endOfString :: rest => rest.isEmpty
  | .ch _ :: rest => Symbol.wellFormedDelivery rest

/-- The delivery of the string `str` (rule R58). -/
def Symbol.delivery (str : List Byte) : List Symbol :=
  str.map Symbol.ch ++ [Symbol.endOfString]

end Sys2Proof
end

