-- ==== Sys2Proof/Decode.lean ====
section
/-! DEFINITION. The command decoder and encoder (rules R70, R72, R73) and those of a symbol (rule R79). `op` alone
selects the operation; no operand bit takes part in decoding, and every opcode has a row of its own, so decoding a
69-bit command word is total. -/

namespace Sys2Proof

/-! ## Opcode numbers (rule R72) -/

namespace Opcode

def reserved0 : BitVec 4 := 0x0#4
def setbit : BitVec 4 := 0x1#4
def getbit : BitVec 4 := 0x2#4
def revlow : BitVec 4 := 0x3#4
def validate : BitVec 4 := 0x4#4
def parse : BitVec 4 := 0x5#4
def lookup : BitVec 4 := 0x6#4
def extract : BitVec 4 := 0x7#4
def pack : BitVec 4 := 0x8#4
def unpack : BitVec 4 := 0x9#4
def encode : BitVec 4 := 0xA#4
def decode : BitVec 4 := 0xB#4
def reservedC : BitVec 4 := 0xC#4
def reservedD : BitVec 4 := 0xD#4
def reservedE : BitVec 4 := 0xE#4
def reservedF : BitVec 4 := 0xF#4

end Opcode

/-! ## Fields of a command word (rule R70) -/

/-- `op` = CW[68:65]. -/
def CommandWord.op (w : CommandWord) : BitVec 4 := w.extractLsb' 65 4

/-- `c` = CW[64]. -/
def CommandWord.c (w : CommandWord) : Bool := w.getLsbD 64

/-- `a` = CW[63:32]. -/
def CommandWord.a (w : CommandWord) : Word := w.extractLsb' 32 32

/-- `b` = CW[31:0]. -/
def CommandWord.b (w : CommandWord) : Word := w.extractLsb' 0 32

/-- `CW = (op, c, a, b)`, `op` in the high bits. -/
def CommandWord.build (op : BitVec 4) (a b : Word) (c : Bool) : CommandWord :=
  op ++ BitVec.ofBool c ++ a ++ b

/-! ## The decoder -/

/-- The opcode map of rule R72, read as the table's bit patterns: the four bits of `op`, highest first. -/
def decodeFields (op : BitVec 4) (a b : Word) (c : Bool) : Instr :=
  match op.getLsbD 3, op.getLsbD 2, op.getLsbD 1, op.getLsbD 0 with
  | false, false, false, false => .reserved0 a b c
  | false, false, false, true  => .setbit a b c
  | false, false, true,  false => .getbit a b c
  | false, false, true,  true  => .revlow a b c
  | false, true,  false, false => .validate a b c
  | false, true,  false, true  => .parse a b c
  | false, true,  true,  false => .lookup a b c
  | false, true,  true,  true  => .extract a b c
  | true,  false, false, false => .pack a b c
  | true,  false, false, true  => .unpack a b c
  | true,  false, true,  false => .encode a b c
  | true,  false, true,  true  => .decode a b c
  | true,  true,  false, false => .reservedC a b c
  | true,  true,  false, true  => .reservedD a b c
  | true,  true,  true,  false => .reservedE a b c
  | true,  true,  true,  true  => .reservedF a b c

/-- The command a 69-bit command word stands for. -/
def decodeCommand (w : CommandWord) : Instr :=
  decodeFields (CommandWord.op w) (CommandWord.a w) (CommandWord.b w) (CommandWord.c w)

/-- Why a number is no command word. -/
inductive DecodeReject where
  /-- A bit at or above position 69 is set: no port of rule R70 could carry it. -/
  | widerThanACommand
  deriving DecidableEq, Repr

/-- The decoder on any natural number read as a command word. -/
def decodeNat (w : Nat) : Except DecodeReject Instr :=
  if w < 2 ^ 69 then .ok (decodeCommand (BitVec.ofNat 69 w)) else .error .widerThanACommand

/-- The command in the low `nbits` bits of `w`, numbered as spec/opcode_table.json numbers them, which is the
numbering of `CW` (rule R70). The core stores no command in a memory (rule R65), so there is no byte order to undo. -/
def decodeTableWord (nbits w : Nat) : Option Instr :=
  match decodeNat (w % 2 ^ nbits) with
  | .ok i => some i
  | .error _ => none

/-! ## The encoder -/

/-- The opcode of a command (rule R72). -/
def Instr.opcode : Instr → BitVec 4
  | .setbit _ _ _ => Opcode.setbit
  | .getbit _ _ _ => Opcode.getbit
  | .revlow _ _ _ => Opcode.revlow
  | .validate _ _ _ => Opcode.validate
  | .parse _ _ _ => Opcode.parse
  | .lookup _ _ _ => Opcode.lookup
  | .extract _ _ _ => Opcode.extract
  | .pack _ _ _ => Opcode.pack
  | .unpack _ _ _ => Opcode.unpack
  | .encode _ _ _ => Opcode.encode
  | .decode _ _ _ => Opcode.decode
  | .reserved0 _ _ _ => Opcode.reserved0
  | .reservedC _ _ _ => Opcode.reservedC
  | .reservedD _ _ _ => Opcode.reservedD
  | .reservedE _ _ _ => Opcode.reservedE
  | .reservedF _ _ _ => Opcode.reservedF

/-- The operands `(a, b, c)` of a command (rule R71). -/
def Instr.operands : Instr → Word × Word × Bool
  | .setbit a b c | .getbit a b c | .revlow a b c | .validate a b c | .parse a b c | .lookup a b c
  | .extract a b c | .pack a b c | .unpack a b c | .encode a b c | .decode a b c
  | .reserved0 a b c | .reservedC a b c | .reservedD a b c | .reservedE a b c | .reservedF a b c => (a, b, c)

/-- The command word of a command (rule R70). -/
def encodeCommand (i : Instr) : CommandWord :=
  CommandWord.build i.opcode i.operands.1 i.operands.2.1 i.operands.2.2

/-! ## Symbols (rule R79) -/

/-- `sym_end` = 0 is `CH(sym_data)`; `sym_end` = 1 is `END` and `sym_data` is ignored. -/
def decodeSymbol (w : SymbolWord) : Symbol :=
  if w.getLsbD 8 then .endOfString else .ch (w.extractLsb' 0 8)

/-- A symbol's nine port bits; the ignored data bits of `END` are written as 0. -/
def encodeSymbol : Symbol → SymbolWord
  | .ch b => 0#1 ++ b
  | .endOfString => 1#1 ++ 0#8

end Sys2Proof
end

