-- ==== Sys2Proof/Machine/State.lean ====
section
/-! DEFINITION. The state of the core: the registers of rule R20, the output buffer of rule R54, and what the host
will present at the coming clock edges. -/

namespace Sys2Proof.Machine

/-- The phase register PH (rule R22). The two-bit value 3 is never written and never reached, and is left out. -/
inductive Phase where
  /-- 0: no command in progress. -/
  | idle
  /-- 1: a string operation is consuming symbols. -/
  | scan
  /-- 2: the extractor is iterating. -/
  | iter
  deriving DecidableEq, Repr

/-- The status codes the core produces (rule R81). The four-bit values 6 to 15 are never produced and are left out. -/
inductive Code where
  /-- 0: the command completed with a result. -/
  | ok
  /-- 1: structural failure of the input string, or no fractional part. -/
  | invalidInput
  /-- 2: ROM lookup miss. -/
  | unsupportedExponent
  /-- 3: more than nine characters after the point. -/
  | fracTooLong
  /-- 4: a numeric operand outside its range. -/
  | badOperand
  /-- 5: reserved opcode. -/
  | illegalOp
  deriving DecidableEq, Repr

/-- What the host drives on the input ports at one rising edge of `clk` (rule R70): `rst`, the command port
(`none`: `cmd_valid` = 0) and the symbol port (`none`: `sym_valid` = 0). The read index `ob_idx` is combinational
and changes no state, so it stands in Machine/Ports.lean. -/
structure HostInput where
  rst : Bool := false
  cmd : Option CommandWord := none
  sym : Option SymbolWord := none
  deriving DecidableEq, Repr

/-- The outcome a completing command posts (the arguments of `complete`, rule R35); what is not given is 0 or empty. -/
structure Result where
  rx : Word := 0
  ry : Word := 0
  rz : Word := 0
  rw : Wide := 0
  trunc : Bool := false
  bytes : List Byte := []
  deriving DecidableEq, Repr

/-- Memory contents: (index, byte) pairs, indices strictly rising, no entry equal to what an unlisted index reads as. -/
abbrev Memory := List Host.Cell

/-- Every register of rule R20 under its own name, OBUF, and the model's own `inputs`. -/
structure State where
  /-- OP, 4 bits: opcode of the command last accepted. -/
  op : BitVec 4
  /-- OPA, 32 bits: its operand a. -/
  opa : Word
  /-- OPB, 32 bits: its operand b. -/
  opb : Word
  /-- OPC, 1 bit: its operand c. -/
  opc : Bool
  /-- PH: the phase. -/
  ph : Phase
  /-- SEEN: a `.` has been consumed. -/
  seen : Bool
  /-- BAD: a structural failure has been seen. -/
  bad : Bool
  /-- OVF: a tenth fractional digit has been seen. -/
  ovf : Bool
  /-- DCNT, 4 bits: digit_count. -/
  dcnt : BitVec 4
  /-- NUM, 32 bits: numerator. -/
  num : Word
  /-- EDGE, 32 bits: 10^DCNT. -/
  edge : Word
  /-- REM, 32 bits: the extractor's remainder. -/
  rem : Word
  /-- ACC, 32 bits: digits produced so far, the digit of iteration i at bit i. -/
  acc : Word
  /-- POS, 5 bits: index of the current iteration. -/
  pos : BitVec 5
  /-- RX, 32 bits: result register x. -/
  rx : Word
  /-- RY, 32 bits: result register y. -/
  ry : Word
  /-- RZ, 32 bits: result register z. -/
  rz : Word
  /-- RW, 128 bits: wide result register. -/
  rw : Wide
  /-- OLEN, 5 bits: number of valid bytes in OBUF. -/
  olen : BitVec 5
  /-- DONE: a command has completed and its result stands. -/
  done : Bool
  /-- CODE: status code of the completed command. -/
  code : Code
  /-- TRUNC: the extractor stopped at the cap with a non-zero remainder. -/
  trunc : Bool
  /-- OBUF: the 25-byte output buffer (rule R54). -/
  obuf : Memory
  /-- The model's own field, not the spec's: the host's port values at the coming clock edges, the next edge first;
  past the end of the list the host presents nothing (notes/assumptions/1.md). -/
  inputs : List HostInput
  deriving DecidableEq, Repr

/-- The reset values of rule R20: every register 0, PH = IDLE, CODE = OK, every OBUF byte 0x00. The host's input
schedule is empty. -/
def State.reset : State where
  op := 0
  opa := 0
  opb := 0
  opc := false
  ph := .idle
  seen := false
  bad := false
  ovf := false
  dcnt := 0
  num := 0
  edge := 0
  rem := 0
  acc := 0
  pos := 0
  rx := 0
  ry := 0
  rz := 0
  rw := 0
  olen := 0
  done := false
  code := .ok
  trunc := false
  obuf := []
  inputs := []

/-- The core has no fault of its own (rule R229): an error is a status code. Each of these stops the model in a state
that no run from reset reaches, because the spec's pseudocode has no case there. All are safe
(notes/assumptions/6.md). -/
inductive Fault where
  /-- Raised by step SYMBOL at END when OP is none of VALIDATE, PARSE, ENCODE (rule R32 has no such case). Safe. -/
  | endOfStringWithoutStringOperation
  /-- Raised by step SYMBOL at END of ENCODE when DCNT is above 9: POW10 has no such entry (rule R57). Safe. -/
  | pow10IndexAboveNine
  /-- Raised by the last ITER pass when OP is neither EXTRACT nor ENCODE (rule R33 has no such case). Safe. -/
  | iterationWithoutExtractor
  deriving DecidableEq, Repr

/-- No meaning of this model refuses. -/
inductive Refusal where
  /-- Raised by an arm of exec whose command has no meaning yet; there is none left. Safe. -/
  | notModelled (mnemonic : String)
  deriving DecidableEq, Repr

end Sys2Proof.Machine
end

