-- ==== Sys2Proof/Machine/Ops.lean ====
section
/-! DEFINITION. The operations every command shares: reading and writing OBUF, accepting a command, completing it
with or without a result, and starting the parser and the extractor. -/

namespace Sys2Proof.Machine

/-! ## The output buffer (rules R54 to R56) -/

/-- What an unlisted OBUF byte reads as: 0x00, its value after reset and after every ACCEPT (rules R31, R250). -/
def Memory.unlisted : Byte := 0x00#8

/-- `MemRead(OBUF, i)`: one byte, no side effect (rules R56, R61). -/
def Memory.read : Memory → Nat → Byte
  | [], _ => Memory.unlisted
  | (j, b) :: rest, i => if j = i then b else Memory.read rest i

/-- Put `(i, b)` in front unless `b` is what an unlisted byte reads as. -/
def Memory.cons (i : Nat) (b : Byte) (m : Memory) : Memory :=
  if b = Memory.unlisted then m else (i, b) :: m

/-- `MemWrite(OBUF, i, 1, b)`: byte `i` becomes `b`, in the canonical form (rule R55). -/
def Memory.write : Memory → Nat → Byte → Memory
  | [], i, b => Memory.cons i b []
  | (j, d) :: rest, i, b =>
    if i < j then Memory.cons i b ((j, d) :: rest)
    else if i = j then Memory.cons i b rest
    else (j, d) :: Memory.write rest i b

/-- The loop `for i in 0..len(s)−1: MemWrite(OBUF, i, 1, s[i])` of rule R35, from index `i` on. -/
def Memory.writeBytes (m : Memory) (i : Nat) : List Byte → Memory
  | [] => m
  | b :: rest => Memory.writeBytes (Memory.write m i b) (i + 1) rest

/-- Every listed index is at least `lo` and below the buffer's size, indices rise, and no entry is the unlisted byte. -/
def Memory.wfFrom (lo : Nat) : Memory → Bool
  | [] => true
  | (i, b) :: rest =>
    decide (lo ≤ i) && decide (i < Config.obufBytes) && b != Memory.unlisted && Memory.wfFrom (i + 1) rest

/-- The canonical form of OBUF. -/
def Memory.wf (m : Memory) : Bool := Memory.wfFrom 0 m

/-! ## Powers of ten (rules R57, R161) -/

/-- The constant table POW10. -/
def pow10Table : List Word :=
  [1#32, 10#32, 100#32, 1000#32, 10000#32, 100000#32, 1000000#32, 10000000#32, 100000000#32, 1000000000#32]

/-- `pow10(d)` for `d` in 0..9. -/
def pow10 (d : Nat) : Option Word := pow10Table[d]?

/-! ## Accepting a command (rule R31) -/

/-- What step ACCEPT does for every command before anything else: latch the command, clear STATUS, the result
registers and the output buffer. -/
def State.accept (s : State) (op : BitVec 4) (a b : Word) (c : Bool) : State :=
  { s with
    op := op, opa := a, opb := b, opc := c
    done := false, code := .ok, trunc := false
    rx := 0, ry := 0, rz := 0, rw := 0
    olen := 0, obuf := [] }

/-! ## Completing a command (rule R35) -/

/-- `complete` with CODE = OK: the result is posted and the core is back in IDLE. -/
def State.post (s : State) (r : Result) : State :=
  { s with
    code := .ok
    rx := r.rx, ry := r.ry, rz := r.rz, rw := r.rw, trunc := r.trunc
    olen := BitVec.ofNat 5 r.bytes.length
    obuf := Memory.writeBytes s.obuf 0 r.bytes
    done := true, ph := .idle }

/-- `raise`: what stands for taking an exception (rules R35, R229). CODE and DONE are written and the core is back in
IDLE; nothing is saved, no mode changes, control goes nowhere. There is no return beside it: the next ACCEPT goes on
(rule R231). -/
def State.raise (s : State) (code : Code) : State :=
  { s with code := code, done := true, ph := .idle }

/-- The common end-of-command action `complete` of rule R35. -/
def State.complete (s : State) (code : Code) (r : Result) : State :=
  if code = .ok then s.post r else s.raise code

/-! ## Starting the parser and the extractor (rules R31, R120) -/

/-- `parser_init`, and the phase becomes SCAN. -/
def State.startScan (s : State) : State :=
  { s with seen := false, bad := false, ovf := false, dcnt := 0, num := 0, ph := .scan }

/-- `extractor_init(d, n)` with `edge = pow10(d)`, and the phase becomes ITER. -/
def State.startIter (s : State) (d : BitVec 4) (n edge : Word) : State :=
  { s with dcnt := d, num := n, edge := edge, rem := n, acc := 0, pos := 0, ph := .iter }

end Sys2Proof.Machine
end

