-- ==== Sys2Proof/Machine/Operands.lean ====
section
/-! DEFINITION. The operand conditions of rule R71, each on all the operand's bits (rule R226), and the field
extraction and insertion of a PackedValue (rules R76, R180, R181), the only operand assembly in the core (rule R85). -/

namespace Sys2Proof.Machine

/-- `n` of SETBIT and GETBIT, which must be at most 31. -/
def bitIndexInRange (n : Word) : Bool := decide (n.toNat < 32)

/-- `count` of REVLOW, which must be at most 32. -/
def runLengthInRange (count : Word) : Bool := decide (count.toNat ≤ 32)

/-- `exponent` of PACK, which must be at most 255. -/
def exponentInRange (e : Word) : Bool := decide (e.toNat ≤ 255)

/-- `significand` of PACK, which must be below 2^23. -/
def significandInRange (g : Word) : Bool := decide (g.toNat < 2 ^ 23)

/-- `digit_count` and `numerator` of EXTRACT: `a ≤ 9` and `b < pow10(a)`. Answers `pow10(a)` when both hold. -/
def extractEdge (d n : Word) : Option Word :=
  match pow10 d.toNat with
  | none => none
  | some edge => if n.toNat < edge.toNat then some edge else none

/-- `pack(s, e, g)`: the word whose three fields these are (rule R180). -/
def packFields (sign : Bool) (exponent : BitVec 8) (significand : BitVec 23) : Word :=
  ((BitVec.ofBool sign).setWidth 32 <<< Config.signPos)
    ||| (exponent.setWidth 32 <<< Config.expLsb) ||| significand.setWidth 32

/-- `significand = word & 0x007FFFFF` (rule R181). -/
def significandOf (word : Word) : Word := word &&& Config.sigMask

/-- `exponent = (word & 0x7FFFFFFF) >> 23` (rule R181). -/
def exponentOf (word : Word) : Word := (word &&& 0x7FFFFFFF#32) >>> Config.expLsb

/-- `sign = word >> 31` (rule R181). -/
def signOf (word : Word) : Word := word >>> Config.signPos

end Sys2Proof.Machine
end

