-- ==== Sys2Proof/Machine/BitPrimitives.lean ====
section
/-! DEFINITION. The bit primitives and their commands SETBIT, GETBIT and REVLOW (40_bit_primitives.md). -/

namespace Sys2Proof.Machine

/-- `set_bit(word, n, value) = (word & ~(1 << n)) | (value << n)` (rule R100). -/
def setBit (word : Word) (n : Nat) (value : Bool) : Word :=
  (word &&& ~~~(1#32 <<< n)) ||| ((BitVec.ofBool value).setWidth 32 <<< n)

/-- `get_bit(word, n) = word[n]` (rule R101). -/
def getBit (word : Word) (n : Nat) : Bool := word.getLsbD n

/-- `reverse_low_bits(word, count)`: bit `i` is `word[count − 1 − i]` below `count` and 0 from `count` on (rule R102). -/
def reverseLowBits (word : Word) (count : Nat) : Word :=
  BitVec.ofFnLE fun i : Fin 32 => decide (i.val < count) && word.getLsbD (count - 1 - i.val)

/-- A bool result on a 32-bit register: true is 1, false is 0 (rule R85). -/
def boolWord (v : Bool) : Word := (BitVec.ofBool v).setWidth 32

/-- SETBIT (rule R103). -/
def execSetbit (word n : Word) (value : Bool) (s : State) : Host.Outcome State Fault Refusal :=
  let t := s.accept Opcode.setbit word n value
  if bitIndexInRange n then .next (t.complete .ok { rx := setBit word n.toNat value })
  else .next (t.raise .badOperand)

/-- GETBIT (rule R104). -/
def execGetbit (word n : Word) (c : Bool) (s : State) : Host.Outcome State Fault Refusal :=
  let t := s.accept Opcode.getbit word n c
  if bitIndexInRange n then .next (t.complete .ok { rx := boolWord (getBit word n.toNat) })
  else .next (t.raise .badOperand)

/-- REVLOW (rule R105). -/
def execRevlow (word count : Word) (c : Bool) (s : State) : Host.Outcome State Fault Refusal :=
  let t := s.accept Opcode.revlow word count c
  if runLengthInRange count then .next (t.complete .ok { rx := reverseLowBits word count.toNat })
  else .next (t.raise .badOperand)

end Sys2Proof.Machine
end

