-- ==== Sys2Proof/Machine/Flags.lean ====
section
/-! DEFINITION. The flags: TRUNC, the parser's verdict over its flags SEEN, BAD and OVF, and the numbers CODE and PH
stand for on their wires. -/

namespace Sys2Proof.Machine

/-- TRUNC: the last pass left a remainder (rules R33, R166, R224). -/
def truncFlag (remainder : Nat) : Bool := decide (remainder ≠ 0)

/-- `parse_verdict()` (rule R123); the order of the tests is the priority of the causes (rule R228). -/
def parseVerdict (s : State) : Code :=
  if s.bad then .invalidInput
  else if !s.seen then .invalidInput
  else if s.ovf then .fracTooLong
  else if s.dcnt = 0#4 then .invalidInput
  else .ok

/-- The CODE numbers of rule R81. -/
def Code.toBits : Code → BitVec 4
  | .ok => 0#4
  | .invalidInput => 1#4
  | .unsupportedExponent => 2#4
  | .fracTooLong => 3#4
  | .badOperand => 4#4
  | .illegalOp => 5#4

/-- The PH numbers of rule R22. -/
def Phase.toBits : Phase → BitVec 2
  | .idle => 0#2
  | .scan => 1#2
  | .iter => 2#2

end Sys2Proof.Machine
end

