-- ==== Sys2Proof/Machine/Extractor.lean ====
section
/-! DEFINITION. The bit-doubling significand extractor and its command EXTRACT (43_significand_extractor.md). -/

namespace Sys2Proof.Machine

/-- The binary digit of one pass: the doubled remainder reaches `edge` (rules R33, R160). -/
def doublingDigit (edge rem : Nat) : Bool := decide (edge ≤ 2 * rem)

/-- The remainder after one pass: `edge` is subtracted when the digit is 1 (rules R33, R160, R167). -/
def doublingRem (edge rem : Nat) : Nat := if edge ≤ 2 * rem then 2 * rem - edge else 2 * rem

/-- EXTRACT (rule R162): step ACCEPT checks the pair and starts the extractor (rule R31). -/
def execExtract (digitCount numerator : Word) (c : Bool) (s : State) : Host.Outcome State Fault Refusal :=
  let t := s.accept Opcode.extract digitCount numerator c
  match extractEdge digitCount numerator with
  | some edge => .next (t.startIter (digitCount.setWidth 4) numerator edge)
  | none => .next (t.raise .badOperand)

/-- The last pass of EXTRACT: `complete(OK, RX = g, RY = e, TRUNC = t)` (rule R33). -/
def finishExtract (s : State) (significand : Word) (exponent : Nat) (trunc : Bool) : State :=
  s.complete .ok { rx := significand, ry := BitVec.ofNat 32 exponent, trunc := trunc }

end Sys2Proof.Machine
end

