-- ==== Sys2Proof/Machine/Packer.lean ====
section
/-! DEFINITION. The field packer and unpacker and their commands PACK and UNPACK (44_pack_unpack.md). -/

namespace Sys2Proof.Machine

/-- PACK (rule R182): the sign is inserted as given, a field too wide is refused and not masked. -/
def execPack (exponent significand : Word) (sign : Bool) (s : State) : Host.Outcome State Fault Refusal :=
  let t := s.accept Opcode.pack exponent significand sign
  if exponentInRange exponent && significandInRange significand then
    .next (t.complete .ok { rx := packFields sign (exponent.setWidth 8) (significand.setWidth 23) })
  else .next (t.raise .badOperand)

/-- UNPACK (rule R183): every word unpacks. -/
def execUnpack (word b : Word) (c : Bool) (s : State) : Host.Outcome State Fault Refusal :=
  let t := s.accept Opcode.unpack word b c
  .next (t.complete .ok { rx := significandOf word, ry := exponentOf word, rz := signOf word })

end Sys2Proof.Machine
end

