-- ==== Sys2Proof/Machine/Parser.lean ====
section
/-! DEFINITION. The decimal parser and its commands VALIDATE and PARSE (41_decimal_parser.md). A string command's own
step is ACCEPT; `finishValidate` and `finishParse` are what the END symbol of its string does (rule R32). -/

namespace Sys2Proof.Machine

/-- The class of a byte (rule R80). -/
inductive CharClass where
  /-- A digit with its value 0..9. -/
  | digit (v : Nat)
  /-- The point. -/
  | dot
  /-- Anything else. -/
  | other
  deriving DecidableEq, Repr

/-- `class(b)` (rule R80). -/
def classOf (b : Byte) : CharClass :=
  if 0x30 ≤ b.toNat ∧ b.toNat ≤ 0x39 then .digit (b.toNat - 0x30)
  else if b.toNat = 0x2E then .dot
  else .other

/-- `parser_update(b)` (rule R121). -/
def parserUpdate (b : Byte) (s : State) : State :=
  match classOf b with
  | .other => { s with bad := true }
  | .dot => if s.seen then { s with bad := true } else { s with seen := true }
  | .digit v =>
    if s.seen then
      if s.dcnt = 9#4 then { s with ovf := true }
      else { s with num := BitVec.ofNat 32 (s.num.toNat * 10 + v), dcnt := s.dcnt + 1 }
    else s

/-- VALIDATE (rule R124): step ACCEPT starts the scan (rule R120). -/
def execValidate (a b : Word) (c : Bool) (s : State) : Host.Outcome State Fault Refusal :=
  .next (s.accept Opcode.validate a b c).startScan

/-- END of VALIDATE: `complete(OK, RX = 1 if BAD = 0 else 0)`. -/
def finishValidate (s : State) : State := s.complete .ok { rx := boolWord !s.bad }

/-- PARSE (rule R127): step ACCEPT starts the scan (rule R120). -/
def execParse (a b : Word) (c : Bool) (s : State) : Host.Outcome State Fault Refusal :=
  .next (s.accept Opcode.parse a b c).startScan

/-- END of PARSE: the pair, or the parse verdict. -/
def finishParse (s : State) : State :=
  s.complete (parseVerdict s) { rx := s.dcnt.setWidth 32, ry := s.num }

end Sys2Proof.Machine
end

