-- ==== Sys2Proof/Machine/Rom.lean ====
section
/-! DEFINITION. The power-of-two lookup ROM and its command LOOKUP (42_pow2_rom.md, rules R51 to R53). -/

namespace Sys2Proof.Machine

/-- PowerOfTwoEntry: `decimal_numerator / 10^decimal_digits = 2^−e` (rule R150). -/
structure RomEntry where
  decimalNumerator : Wide
  decimalDigits : Word
  deriving DecidableEq, Repr

/-- The 23 decimal numerators of rule R151 in hex, for e = 1 to 23. -/
def romNumerators : List Wide :=
  [0x5#128, 0x19#128, 0x7D#128, 0x271#128, 0xC35#128, 0x3D09#128, 0x1312D#128, 0x5F5E1#128]
  ++ [0x1DCD65#128, 0x9502F9#128, 0x2E90EDD#128, 0xE8D4A51#128, 0x48C27395#128, 0x16BCC41E9#128, 0x71AFD498D#128]
  ++ [0x2386F26FC1#128, 0xB1A2BC2EC5#128, 0x3782DACE9D9#128, 0x1158E460913D#128, 0x56BC75E2D631#128]
  ++ [0x1B1AE4D6E2EF5#128, 0x878678326EAC9#128, 0x2A5A058FC295ED#128]

/-- `MemRead(P2ROM, e)`: the entry for 1 ≤ e ≤ 23, a miss (`none`) for every other index (rule R52). -/
def romRead (e : Word) : Option RomEntry :=
  if Config.romLo ≤ e.toNat ∧ e.toNat ≤ Config.romHi then
    match romNumerators[e.toNat - 1]? with
    | some n => some { decimalNumerator := n, decimalDigits := e }
    | none => none
  else none

/-- LOOKUP (rule R152). -/
def execLookup (index b : Word) (c : Bool) (s : State) : Host.Outcome State Fault Refusal :=
  let t := s.accept Opcode.lookup index b c
  match romRead index with
  | some entry => .next (t.complete .ok { rw := entry.decimalNumerator, rx := entry.decimalDigits })
  | none => .next (t.raise .unsupportedExponent)

end Sys2Proof.Machine
end

