-- ==== Sys2Proof/Machine/EncodeDecode.lean ====
section
/-! DEFINITION. The end-to-end commands ENCODE and DECODE (45_encode_decode.md). -/

namespace Sys2Proof.Machine

/-! ## ENCODE -/

/-- ENCODE (rule R190): step ACCEPT starts the scan (rule R120). -/
def execEncode (a b : Word) (c : Bool) (s : State) : Host.Outcome State Fault Refusal :=
  .next (s.accept Opcode.encode a b c).startScan

/-- END of ENCODE: the extractor starts on (DCNT, NUM), or the parse verdict is raised (rules R32, R190). -/
def endOfEncodeString (s : State) : Host.Outcome State Fault Refusal :=
  if parseVerdict s = .ok then
    match pow10 s.dcnt.toNat with
    | some edge => .next (s.startIter s.dcnt s.num edge)
    | none => .fault .pow10IndexAboveNine
  else .next (s.raise (parseVerdict s))

/-- The last pass of ENCODE: `complete(OK, RX = pack(0, e, g), TRUNC = t)` (rule R33). -/
def finishEncode (s : State) (significand : Word) (exponent : Nat) (trunc : Bool) : State :=
  s.complete .ok
    { rx := packFields false (BitVec.ofNat 8 exponent) (significand.setWidth 23), trunc := trunc }

/-! ## DECODE -/

/-- The decimal digits of `p`, least significant first, at most `fuel` of them and at least one if `fuel` allows. -/
def decimalDigitsLow : Nat → Nat → List Nat
  | 0, _ => []
  | fuel + 1, p => p % 10 :: if p < 10 then [] else decimalDigitsLow fuel (p / 10)

/-- `dec(p)`: the base-10 numeral of `p` in ASCII, most significant digit first, no leading zero, "0" for 0
(rule R197). A natural below 2^k has at most k decimal digits, so the fuel never runs out. -/
def decimalNumeral (p : Nat) : List Byte :=
  (decimalDigitsLow (p.log2 + 1) p).reverse.map fun d => BitVec.ofNat 8 (0x30 + d)

/-- `rep(0x30, z)` in front of `digits` until there are `width` of them; never shortens (rules R195, R198). -/
def padDigits (width : Nat) (digits : List Byte) : List Byte :=
  List.replicate (width - digits.length) 0x30#8 ++ digits

/-- `decode(w)` (rule R195): `none` is the error UnsupportedExponent. Bit 31 is not read (rule R200). -/
def decodeString (word : Word) : Option (List Byte) :=
  match romRead (exponentOf word) with
  | none => none
  | some entry =>
    let product := entry.decimalNumerator.toNat * (significandOf word).toNat
    some (0x30#8 :: 0x2E#8 :: padDigits entry.decimalDigits.toNat (decimalNumeral product))

/-- DECODE (rule R194). -/
def execDecode (word b : Word) (c : Bool) (s : State) : Host.Outcome State Fault Refusal :=
  let t := s.accept Opcode.decode word b c
  match decodeString word with
  | some bytes => .next (t.complete .ok { bytes := bytes })
  | none => .next (t.raise .unsupportedExponent)

end Sys2Proof.Machine
end

