-- ==== Sys2Proof/Machine/Reserved.lean ====
section
/-! DEFINITION. The five reserved opcodes (rule R73): the command is accepted and completes at once with IllegalOp;
its operands are latched and not examined (rules R227, R228). -/

namespace Sys2Proof.Machine

/-- A reserved opcode: accepted, then `raise IllegalOp`. -/
def illegalOp (op : BitVec 4) (a b : Word) (c : Bool) (s : State) : Host.Outcome State Fault Refusal :=
  .next ((s.accept op a b c).raise .illegalOp)

/-- `op` = 0x0. -/
def execReserved0 (a b : Word) (c : Bool) (s : State) : Host.Outcome State Fault Refusal :=
  illegalOp Opcode.reserved0 a b c s

/-- `op` = 0xC. -/
def execReservedC (a b : Word) (c : Bool) (s : State) : Host.Outcome State Fault Refusal :=
  illegalOp Opcode.reservedC a b c s

/-- `op` = 0xD. -/
def execReservedD (a b : Word) (c : Bool) (s : State) : Host.Outcome State Fault Refusal :=
  illegalOp Opcode.reservedD a b c s

/-- `op` = 0xE. -/
def execReservedE (a b : Word) (c : Bool) (s : State) : Host.Outcome State Fault Refusal :=
  illegalOp Opcode.reservedE a b c s

/-- `op` = 0xF. -/
def execReservedF (a b : Word) (c : Bool) (s : State) : Host.Outcome State Fault Refusal :=
  illegalOp Opcode.reservedF a b c s

end Sys2Proof.Machine
end

