-- ==== Sys2Proof/Machine/Dispatch.lean ====
section
/-! DEFINITION. Step ACCEPT of each command (rule R31): one arm a command, each one call of its meaning. -/

namespace Sys2Proof.Machine

def exec (i : Instr) (s : State) : Host.Outcome State Fault Refusal :=
  match i with
  -- bit primitives
  | .setbit word n value => Sys2Proof.Machine.execSetbit word n value s
  | .getbit word n c => Sys2Proof.Machine.execGetbit word n c s
  | .revlow word count c => Sys2Proof.Machine.execRevlow word count c s
  -- decimal parser
  | .validate a b c => Sys2Proof.Machine.execValidate a b c s
  | .parse a b c => Sys2Proof.Machine.execParse a b c s
  -- lookup ROM
  | .lookup index b c => Sys2Proof.Machine.execLookup index b c s
  -- significand extractor
  | .extract digitCount numerator c => Sys2Proof.Machine.execExtract digitCount numerator c s
  -- packer and unpacker
  | .pack exponent significand sign => Sys2Proof.Machine.execPack exponent significand sign s
  | .unpack word b c => Sys2Proof.Machine.execUnpack word b c s
  -- end-to-end operations
  | .encode a b c => Sys2Proof.Machine.execEncode a b c s
  | .decode word b c => Sys2Proof.Machine.execDecode word b c s
  -- reserved opcodes
  | .reserved0 a b c => Sys2Proof.Machine.execReserved0 a b c s
  | .reservedC a b c => Sys2Proof.Machine.execReservedC a b c s
  | .reservedD a b c => Sys2Proof.Machine.execReservedD a b c s
  | .reservedE a b c => Sys2Proof.Machine.execReservedE a b c s
  | .reservedF a b c => Sys2Proof.Machine.execReservedF a b c s

end Sys2Proof.Machine
end

