-- ==== Sys2Proof/Machine/Fetch.lean ====
section
/-! DEFINITION. Sampling the input ports at a rising edge, and reset. The host's port values at the coming edges
stand in `State.inputs`; past its end nothing is presented (notes/assumptions/1.md). -/

namespace Sys2Proof.Machine

/-- What the host drives at this edge. -/
def State.presented (s : State) : HostInput :=
  match s.inputs with
  | [] => {}
  | e :: _ => e

/-- The edge is over: the next one's port values come first. -/
def State.advanceInputs (s : State) : State := { s with inputs := s.inputs.tail }

/-- An edge with `rst` = 1 (rule R250): every register takes its reset value, whatever the phase and whatever else is
presented. -/
def State.resetRegisters (s : State) : State := { State.reset with inputs := s.inputs }

/-- The port values that present the command word `w` and nothing else. -/
def HostInput.command (w : CommandWord) : HostInput := { cmd := some w }

/-- The port values that present one symbol and nothing else. -/
def HostInput.symbol (sym : Symbol) : HostInput := { sym := some (encodeSymbol sym) }

/-- The next edge presents the command word `w` with `rst` = 0, whatever it presented before. -/
def presentCommand (w : CommandWord) : List HostInput → List HostInput
  | [] => [HostInput.command w]
  | e :: rest => { e with rst := false, cmd := some w } :: rest

end Sys2Proof.Machine
end

