-- ==== Sys2Proof/Machine/Iterate.lean ====
section
/-! DEFINITION. Step ITER (rule R33). -/

namespace Sys2Proof.Machine

/-- The last iteration is the one that leaves no remainder or has POS = CAP − 1 (rule R33; 90_conflicts.md C3). -/
def lastIteration (pos rem : Nat) : Bool := decide (rem = 0) || decide (pos = Config.cap - 1)

/-- One doubling pass: ACC gains the digit at bit POS, REM becomes the reduced remainder. -/
def State.recordDigit (s : State) : State :=
  { s with
    acc := setBit s.acc s.pos.toNat (doublingDigit s.edge.toNat s.rem.toNat)
    rem := BitVec.ofNat 32 (doublingRem s.edge.toNat s.rem.toNat) }

/-- `POS <- POS + 1`. -/
def State.nextPosition (s : State) : State := { s with pos := s.pos + 1 }

/-- Step ITER: one doubling pass, then completion or the next position. POS is not advanced by the last pass. -/
def stepIter (s : State) : Host.Outcome State Fault Refusal :=
  let r := doublingRem s.edge.toNat s.rem.toNat
  let t := s.recordDigit
  if lastIteration s.pos.toNat r then
    let e := s.pos.toNat + 1
    let g := reverseLowBits t.acc e
    if s.op = Opcode.extract then .next (finishExtract t g e (truncFlag r))
    else if s.op = Opcode.encode then .next (finishEncode t g e (truncFlag r))
    else .fault .iterationWithoutExtractor
  else .next t.nextPosition

end Sys2Proof.Machine
end

