-- ==== Sys2Proof/Machine/Scan.lean ====
section
/-! DEFINITION. Step SYMBOL (rule R32). -/

namespace Sys2Proof.Machine

/-- The END symbol: what it does depends on the string operation OP names. -/
def endOfString (s : State) : Host.Outcome State Fault Refusal :=
  if s.op = Opcode.validate then .next (finishValidate s)
  else if s.op = Opcode.parse then .next (finishParse s)
  else if s.op = Opcode.encode then endOfEncodeString s
  else .fault .endOfStringWithoutStringOperation

/-- Step SYMBOL: every symbol up to and including END is consumed, whatever the parser flags say. -/
def stepSymbol (sym : Symbol) (s : State) : Host.Outcome State Fault Refusal :=
  match sym with
  | .ch b => .next (parserUpdate b s)
  | .endOfString => endOfString s

end Sys2Proof.Machine
end

