-- ==== Sys2Proof/Machine/Edge.lean ====
section
/-! DEFINITION. One rising edge of `clk` (rules R34, R250, R260): reset dominates; else the one step PH enables is
taken if the host presents what it needs; else the core holds its state. And how the host places a command at the next
edge. -/

namespace Sys2Proof.Machine

/-- One rising edge, and what the host drove at it is gone. -/
def clockEdge (s : State) : Host.Outcome State Fault Refusal :=
  let e := s.presented
  let t := s.advanceInputs
  if e.rst then .next t.resetRegisters
  else
    match s.ph with
    | .idle =>
      match e.cmd with
      | some w => exec (decodeCommand w) t
      | none => .next t
    | .scan =>
      match e.sym with
      | some w => stepSymbol (decodeSymbol w) t
      | none => .next t
    | .iter => stepIter t

/-- The command in the low `nbits` bits of `w` stands on the command port at the next edge, `rst` = 0 there, and the
core is ready for it (PH = IDLE), so that the very next edge accepts it (notes/assumptions/8.md). -/
def State.placeCommand (s : State) (nbits w : Nat) : State :=
  { s with ph := .idle, inputs := presentCommand (BitVec.ofNat 69 (w % 2 ^ nbits)) s.inputs }

end Sys2Proof.Machine
end

