-- ==== Sys2Proof/Machine/Step.lean ====
section
/-! DEFINITION. A step of the machine is one rising edge of `clk` (notes/assumptions/2.md). -/

namespace Sys2Proof.Machine

def step (s : State) : Host.Outcome State Fault Refusal := clockEdge s

/-- `s` with the command in the low `nbits` bits of `w` presented at the next edge (notes/assumptions/8.md). -/
def State.withFetchWord (s : State) (nbits w : Nat) : State := s.placeCommand nbits w

end Sys2Proof.Machine
end

