-- ==== Sys2Proof/Machine/Ports.lean ====
section
/-! DEFINITION. The output ports of rule R70, as functions of the state. What they show is all the host can read
(rule R29). -/

namespace Sys2Proof.Machine

/-- The output ports except `ob_data`. -/
structure Outputs where
  cmdReady : Bool
  symReady : Bool
  busy : Bool
  done : Bool
  code : BitVec 4
  trunc : Bool
  rx : Word
  ry : Word
  rz : Word
  rw : Wide
  olen : BitVec 5
  deriving DecidableEq, Repr

/-- `cmd_ready` = 1 iff PH = IDLE, `sym_ready` = 1 iff PH = SCAN, `busy` = (PH ≠ IDLE), and the readable registers. -/
def State.outputs (s : State) : Outputs where
  cmdReady := decide (s.ph = .idle)
  symReady := decide (s.ph = .scan)
  busy := decide (s.ph ≠ .idle)
  done := s.done
  code := s.code.toBits
  trunc := s.trunc
  rx := s.rx
  ry := s.ry
  rz := s.rz
  rw := s.rw
  olen := s.olen

/-- `ob_data`: OBUF[`ob_idx`] if `ob_idx` ≤ 24, else 0x00 (rules R56, R70). -/
def State.obData (s : State) (obIdx : BitVec 5) : Byte :=
  if obIdx.toNat < Config.obufBytes then s.obuf.read obIdx.toNat else 0x00#8

/-- The decimal string the host reads out of OBUF: bytes 0 to OLEN − 1 in order (rules R54, R59). -/
def State.outputString (s : State) : List Byte :=
  (List.range s.olen.toNat).map s.obuf.read

end Sys2Proof.Machine
end

