-- ==== Sys2Proof/Machine/Reference.lean ====
section
/-! DEFINITION. The operations as the pure functions the spec gives beside the steps: functions of the whole string
(rules R122, R123, R125, R191) and the extractor's loop as one function (rule R160). No step calls them; claims
compare the steps with them (rules R7, R37). -/

namespace Sys2Proof.Machine

/-! ## Whole strings -/

/-- The byte has class DOT. -/
def isDot (b : Byte) : Bool := decide (classOf b = .dot)

/-- `validate(s)` (rule R122): no byte of class OTHER and at most one DOT. -/
def validateString (str : List Byte) : Bool :=
  str.all (fun b => decide (classOf b ≠ .other)) && decide (str.countP isDot ≤ 1)

/-- The bytes after the first DOT (rule R125's `f`); empty when there is none. -/
def fractionOf (str : List Byte) : List Byte := (str.dropWhile fun b => !isDot b).drop 1

/-- Digit bytes read as a base-10 integer, most significant first; 0 if there are none (rule R125). -/
def digitsValue (f : List Byte) : Nat := f.foldl (fun v b => v * 10 + (b.toNat - 0x30)) 0

/-- `parse_fraction(s)` as the pair (digit_count, numerator) (rule R125). -/
def parseFraction (str : List Byte) : Nat × Nat := ((fractionOf str).length, digitsValue (fractionOf str))

/-- The verdict of scanning `str`, causes in the order of rule R123. -/
def stringVerdict (str : List Byte) : Code :=
  if !validateString str then .invalidInput
  else if !str.any isDot then .invalidInput
  else if Config.maxFracDigits < (fractionOf str).length then .fracTooLong
  else if (fractionOf str).isEmpty then .invalidInput
  else .ok

/-! ## The extractor's loop -/

/-- The triple `extract(d, n)` returns (rule R160). -/
structure Extraction where
  significand : Word
  exponent : Nat
  truncated : Bool
  deriving DecidableEq, Repr

/-- What follows the exit of the loop of rule R160. -/
def extractionAt (rem : Nat) (acc : Word) (pos : Nat) : Extraction where
  significand := reverseLowBits acc (pos + 1)
  exponent := pos + 1
  truncated := truncFlag rem

/-- The loop of rule R160 with `left` passes allowed after this one. -/
def extractLoop (edge : Nat) : Nat → Nat → Word → Nat → Extraction
  | 0, rem, acc, pos =>
    extractionAt (doublingRem edge rem) (setBit acc pos (doublingDigit edge rem)) pos
  | left + 1, rem, acc, pos =>
    if doublingRem edge rem = 0 then
      extractionAt (doublingRem edge rem) (setBit acc pos (doublingDigit edge rem)) pos
    else extractLoop edge left (doublingRem edge rem) (setBit acc pos (doublingDigit edge rem)) (pos + 1)

/-- `extract(d, n)` (rule R160), for `d ≤ 9` and `n < 10^d`. -/
def extractPair (d n : Nat) : Extraction := extractLoop (10 ^ d) (Config.cap - 1) n 0 0

/-! ## ENCODE as one function -/

/-- `encode(s)` (rule R191): the packed word and TRUNC, or the code of the failure. -/
def encodeString (str : List Byte) : Except Code (Word × Bool) :=
  if stringVerdict str = .ok then
    let x := extractPair (parseFraction str).1 (parseFraction str).2
    .ok (packFields false (BitVec.ofNat 8 x.exponent) (x.significand.setWidth 23), x.truncated)
  else .error (stringVerdict str)

end Sys2Proof.Machine
end

