-- ==== Sys2Proof/Safety.lean ====
section
/-! DEFINITION. The terms claims are stated in: the state invariant of rule R36, what an accepted, a completed and a
failed command leave, runs of many clock edges, and what a host presents to run one command. -/

namespace Sys2Proof.Machine

/-! ## The invariant (rule R36) -/

/-- The invariants (b) to (f) of rule R36 ((a) is the type of PH), the canonical form of OBUF, and what rules R31 to
R33 make true of a command in progress. -/
structure State.Inv (s : State) : Prop where
  /-- (b) DCNT ≤ 9. -/
  dcnt_le : s.dcnt.toNat ≤ 9
  /-- (b) NUM < 10^DCNT. -/
  num_lt : s.num.toNat < 10 ^ s.dcnt.toNat
  /-- (c) EDGE = 10^DCNT. -/
  iter_edge : s.ph = .iter → s.edge.toNat = 10 ^ s.dcnt.toNat
  /-- (c) REM < EDGE. -/
  iter_rem : s.ph = .iter → s.rem.toNat < s.edge.toNat
  /-- (c) POS ≤ 22. -/
  iter_pos : s.ph = .iter → s.pos.toNat ≤ 22
  /-- (c) ACC < 2^POS. -/
  iter_acc : s.ph = .iter → s.acc.toNat < 2 ^ s.pos.toNat
  /-- (d) DONE = 1 implies PH = IDLE. -/
  done_idle : s.done = true → s.ph = .idle
  /-- (e) CODE ≠ OK implies an absent result. -/
  failed_absent : s.code ≠ .ok → s.rx = 0 ∧ s.ry = 0 ∧ s.rz = 0 ∧ s.rw = 0 ∧ s.trunc = false ∧ s.olen = 0
  /-- (f) OLEN ≤ 25. -/
  olen_le : s.olen.toNat ≤ 25
  /-- (f) OBUF[i] = 0x00 for every i ≥ OLEN. -/
  obuf_tail : ∀ i, s.olen.toNat ≤ i → s.obuf.read i = 0x00#8
  /-- OBUF is in its canonical form and lists indices 0 to 24 only. -/
  obuf_wf : s.obuf.wf = true
  /-- In SCAN the command is a string operation (rule R31). -/
  scan_op : s.ph = .scan → s.op = Opcode.validate ∨ s.op = Opcode.parse ∨ s.op = Opcode.encode
  /-- In ITER the command is EXTRACT or ENCODE (rule R33). -/
  iter_op : s.ph = .iter → s.op = Opcode.extract ∨ s.op = Opcode.encode
  /-- A command in progress shows no result (rules R31, R259). -/
  busy_absent : s.ph ≠ .idle →
    s.code = .ok ∧ s.rx = 0 ∧ s.ry = 0 ∧ s.rz = 0 ∧ s.rw = 0 ∧ s.trunc = false ∧ s.olen = 0

/-! ## What a command leaves -/

/-- The parser's and the extractor's registers are as they were. -/
def State.sameWorking (s t : State) : Prop :=
  t.seen = s.seen ∧ t.bad = s.bad ∧ t.ovf = s.ovf ∧ t.dcnt = s.dcnt ∧ t.num = s.num ∧
  t.edge = s.edge ∧ t.rem = s.rem ∧ t.acc = s.acc ∧ t.pos = s.pos

/-- EDGE, REM, ACC and POS are as they were. -/
def State.sameExtractor (s t : State) : Prop :=
  t.edge = s.edge ∧ t.rem = s.rem ∧ t.acc = s.acc ∧ t.pos = s.pos

/-- The operand latches hold the command `i`. -/
def State.latched (t : State) (i : Instr) : Prop :=
  t.op = i.opcode ∧ t.opa = i.operands.1 ∧ t.opb = i.operands.2.1 ∧ t.opc = i.operands.2.2

/-- The operand latches are as they were. -/
def State.sameLatches (s t : State) : Prop :=
  t.op = s.op ∧ t.opa = s.opa ∧ t.opb = s.opb ∧ t.opc = s.opc

/-- STATUS, the result registers and OBUF as a command in progress shows them: all zero (rule R31). -/
def State.cleared (t : State) : Prop :=
  t.done = false ∧ t.code = .ok ∧ t.trunc = false ∧ t.rx = 0 ∧ t.ry = 0 ∧ t.rz = 0 ∧ t.rw = 0 ∧
  t.olen = 0 ∧ ∀ i, t.obuf.read i = 0x00#8

/-- The command has completed with CODE = OK and the result `r`; every OBUF byte from OLEN on is 0x00 (rules R35, R54). -/
def State.posted (t : State) (r : Result) : Prop :=
  t.ph = .idle ∧ t.done = true ∧ t.code = .ok ∧ t.trunc = r.trunc ∧
  t.rx = r.rx ∧ t.ry = r.ry ∧ t.rz = r.rz ∧ t.rw = r.rw ∧
  t.olen.toNat = r.bytes.length ∧ ∀ i, t.obuf.read i = r.bytes.getD i 0x00#8

/-- The command has completed with the code `code` and an absent result (rules R35, R230). -/
def State.failed (t : State) (code : Code) : Prop :=
  t.ph = .idle ∧ t.done = true ∧ t.code = code ∧ t.trunc = false ∧
  t.rx = 0 ∧ t.ry = 0 ∧ t.rz = 0 ∧ t.rw = 0 ∧ t.olen = 0 ∧ ∀ i, t.obuf.read i = 0x00#8

/-! ## Runs -/

/-- `n` clock edges, stopping at the first fault or refusal. -/
def steps : Nat → State → Host.Outcome State Fault Refusal
  | 0, s => .next s
  | n + 1, s =>
    match step s with
    | .next t => steps n t
    | .fault r => .fault r
    | .refused r => .refused r

/-- `s` with the host about to present `edges`. -/
def State.facing (s : State) (edges : List HostInput) : State := { s with inputs := edges }

/-- The host presents the command `i`. -/
def commandEdges (i : Instr) : List HostInput := [HostInput.command (encodeCommand i)]

/-- The host presents the command `i` and then delivers the string `str`, one symbol an edge (rule R58). -/
def stringEdges (i : Instr) (str : List Byte) : List HostInput :=
  HostInput.command (encodeCommand i) :: (Symbol.delivery str).map HostInput.symbol

/-! ## Strings and fractions -/

/-- Every byte is an ASCII digit 0x30 to 0x39 (rule R80). -/
def AllDigits (f : List Byte) : Prop := ∀ b ∈ f, 0x30 ≤ b.toNat ∧ b.toNat ≤ 0x39

/-- Every byte is a digit or the point, and there is at most one point (rule R122). -/
def ValidDecimal (str : List Byte) : Prop :=
  (∀ b ∈ str, (0x30 ≤ b.toNat ∧ b.toNat ≤ 0x39) ∨ b = 0x2E#8) ∧ str.count 0x2E#8 ≤ 1

/-- The string `whole . frac`. -/
def decimalString (whole frac : List Byte) : List Byte := whole ++ 0x2E#8 :: frac

/-- `k` is the number of passes the extractor makes on `n / 10^d`: the least `j` in 1..23 for which `10^d` divides
`n · 2^j`, or 23 if there is none (rule R163). -/
def PassCount (d n k : Nat) : Prop :=
  1 ≤ k ∧ k ≤ 23 ∧ (∀ j, 1 ≤ j → j < k → n * 2 ^ j % 10 ^ d ≠ 0) ∧ (n * 2 ^ k % 10 ^ d = 0 ∨ k = 23)

/-- The base-10 numeral of `p` in ASCII, most significant digit first, "0" for 0 (rule R197), by the library's digits. -/
def asciiNumeral (p : Nat) : List Byte :=
  if p = 0 then [0x30#8] else (Nat.digits 10 p).reverse.map fun d => BitVec.ofNat 8 (0x30 + d)

/-- "0." followed by the numeral of `p`, padded with zeros on the left to `width` digits (rule R195). -/
def fractionString (width p : Nat) : List Byte :=
  0x30#8 :: 0x2E#8 :: (List.replicate (width - (asciiNumeral p).length) 0x30#8 ++ asciiNumeral p)

/-- `f` without its trailing `0` bytes. -/
def dropTrailingZeros (f : List Byte) : List Byte := (f.reverse.dropWhile (· == 0x30#8)).reverse

end Sys2Proof.Machine
end

