-- ==== Sys2Proof/Certificates/Slice0/Obligations.lean ====
section
/-! DEFINITION. What is claimed of the core. Each docstring names the rule or the section of the spec it formalises. -/

open Sys2Proof Sys2Proof.Machine

/-! ## Commands and symbols -/

/-- From R70 and R72: decoding an encoded command gives it back, every operand at every value. -/
def Obligations.DecodeInvertsEncode : Prop :=
  ∀ i : Instr, decodeCommand (encodeCommand i) = i

/-- From R70 and R72: each 69-bit word is the word of exactly the command it decodes to. -/
def Obligations.EncodeInvertsDecode : Prop :=
  ∀ w : CommandWord, encodeCommand (decodeCommand w) = w

/-- R72: `op` alone selects the operation; the eleven opcodes and their operations. -/
def Obligations.OpcodeAloneSelectsTheOperation : Prop :=
  ∀ (a b : Word) (c : Bool),
    decodeCommand (CommandWord.build 0x1#4 a b c) = .setbit a b c ∧
    decodeCommand (CommandWord.build 0x2#4 a b c) = .getbit a b c ∧
    decodeCommand (CommandWord.build 0x3#4 a b c) = .revlow a b c ∧
    decodeCommand (CommandWord.build 0x4#4 a b c) = .validate a b c ∧
    decodeCommand (CommandWord.build 0x5#4 a b c) = .parse a b c ∧
    decodeCommand (CommandWord.build 0x6#4 a b c) = .lookup a b c ∧
    decodeCommand (CommandWord.build 0x7#4 a b c) = .extract a b c ∧
    decodeCommand (CommandWord.build 0x8#4 a b c) = .pack a b c ∧
    decodeCommand (CommandWord.build 0x9#4 a b c) = .unpack a b c ∧
    decodeCommand (CommandWord.build 0xA#4 a b c) = .encode a b c ∧
    decodeCommand (CommandWord.build 0xB#4 a b c) = .decode a b c ∧
    (∀ op : BitVec 4, op = 0x0#4 ∨ op = 0xC#4 ∨ op = 0xD#4 ∨ op = 0xE#4 ∨ op = 0xF#4 →
      (decodeCommand (CommandWord.build op a b c)).wellFormed = false)

/-- From R70: where the fields of a command word stand, `CW = (op << 65) | (c << 64) | (a << 32) | b`. -/
def Obligations.CommandWordFieldsStandWhereR70Says : Prop :=
  ∀ i : Instr,
    (encodeCommand i).toNat =
      i.opcode.toNat * 2 ^ 65 + i.operands.2.2.toNat * 2 ^ 64 + i.operands.1.toNat * 2 ^ 32 + i.operands.2.1.toNat

/-- 95_test_vectors.md sections 2.8 and 3: command words the spec prints, one a family, and what they stand for. -/
def Obligations.PrintedCommandWordsDecode : Prop :=
  decodeNat 0x030000000000000020 = .ok (.setbit 0 32 true) ∧
  decodeNat 0x060000000500000003 = .ok (.revlow 5 3 false) ∧
  decodeNat 0x0A0000000000000000 = .ok (.parse 0 0 false) ∧
  decodeNat 0x0D0000001700000000 = .ok (.lookup 23 0 true) ∧
  decodeNat 0x0E0000000400000096 = .ok (.extract 4 150 false) ∧
  decodeNat 0x110000000100000001 = .ok (.pack 1 1 true) ∧
  decodeNat 0x168080000100000000 = .ok (.decode 0x80800001 0 false) ∧
  decodeNat 0x190000000100000002 = .ok (.reservedC 1 2 true)

/-- R79: `sym_end` = 0 is `CH(sym_data)`; `sym_end` = 1 is END whatever `sym_data` is. -/
def Obligations.SymbolPortFormat : Prop :=
  ∀ data : Byte,
    decodeSymbol (0#1 ++ data) = .ch data ∧ decodeSymbol (1#1 ++ data) = .endOfString

/-- From R31 and R70: with PH = IDLE, `rst` = 0 and a command on the port, the edge is ACCEPT of the command the port's word stands
for, at the state whose next edge is the following one. -/
def Obligations.StepRunsThePresentedCommand : Prop :=
  ∀ (s : State) (e : HostInput) (rest : List HostInput) (i : Instr),
    s.ph = .idle → s.inputs = e :: rest → e.rst = false → e.cmd = some (encodeCommand i) →
      step s = exec i { s with inputs := rest }

/-- From R71, R73, R226 and R227: every command is answered with a next state, and it is refused exactly when it is ill formed. -/
def Obligations.IllFormedCommandsAreTheRefusedOnes : Prop :=
  ∀ (i : Instr) (s : State), ∃ t, exec i s = .next t ∧
    (i.wellFormed = true ↔ t.code ≠ .badOperand ∧ t.code ≠ .illegalOp)

/-- From R31: step ACCEPT latches the whole command, whatever it is, takes no further edge of the host's schedule, and
leaves the extractor's registers alone unless the command is EXTRACT. -/
def Obligations.AcceptLatchesEveryCommand : Prop :=
  ∀ (i : Instr) (s : State), ∃ t, exec i s = .next t ∧ t.latched i ∧ t.inputs = s.inputs ∧
    (t.ph ≠ .iter → s.sameExtractor t) ∧ (t.ph = .idle → s.sameWorking t ∧ t.done = true)

/-! ## Reset and invariants -/

/-- R250: an edge with `rst` = 1 gives every register and OBUF byte its reset value, whatever the phase and whatever
is presented. -/
def Obligations.ResetEdgeClearsEverything : Prop :=
  ∀ (s : State) (e : HostInput) (rest : List HostInput), s.inputs = e :: rest → e.rst = true →
    ∃ t, step s = .next t ∧ t.inputs = rest ∧ t.ph = .idle ∧ t.cleared ∧
      t.op = 0 ∧ t.opa = 0 ∧ t.opb = 0 ∧ t.opc = false ∧
      t.seen = false ∧ t.bad = false ∧ t.ovf = false ∧ t.dcnt = 0 ∧ t.num = 0 ∧
      t.edge = 0 ∧ t.rem = 0 ∧ t.acc = 0 ∧ t.pos = 0

/-- 10_state.md section 3: the invariant holds in the reset state. -/
def Obligations.ResetStateMeetsTheInvariant : Prop := State.reset.Inv

/-- 10_state.md section 3: every step keeps the invariant. -/
def Obligations.StepKeepsTheInvariant : Prop :=
  ∀ s t : State, s.Inv → step s = .next t → t.Inv

/-- From R229 and R237: from a state that meets the invariant no edge ends in a fault or a refusal, whatever the host does. -/
def Obligations.NoEdgeStopsTheCore : Prop :=
  ∀ s : State, s.Inv → ∃ t, step s = .next t

/-! ## Bit primitives -/

/-- R103, R100: SETBIT. -/
def Obligations.SetbitWritesOneBit : Prop :=
  ∀ (word n : Word) (value : Bool) (s : State),
    (n.toNat < 32 → ∃ t, exec (.setbit word n value) s = .next t ∧
      t.latched (.setbit word n value) ∧ t.inputs = s.inputs ∧ s.sameWorking t ∧ t.posted { rx := t.rx } ∧
      ∀ i, i < 32 → t.rx.getLsbD i = if i = n.toNat then value else word.getLsbD i) ∧
    (32 ≤ n.toNat → ∃ t, exec (.setbit word n value) s = .next t ∧
      t.latched (.setbit word n value) ∧ t.inputs = s.inputs ∧ s.sameWorking t ∧ t.failed .badOperand)

/-- R104, R101: GETBIT. -/
def Obligations.GetbitReadsOneBit : Prop :=
  ∀ (word n : Word) (c : Bool) (s : State),
    (n.toNat < 32 → ∃ t, exec (.getbit word n c) s = .next t ∧
      t.latched (.getbit word n c) ∧ t.inputs = s.inputs ∧ s.sameWorking t ∧ t.posted { rx := t.rx } ∧
      t.rx.toNat = word.toNat / 2 ^ n.toNat % 2) ∧
    (32 ≤ n.toNat → ∃ t, exec (.getbit word n c) s = .next t ∧
      t.latched (.getbit word n c) ∧ t.inputs = s.inputs ∧ s.sameWorking t ∧ t.failed .badOperand)

/-- R105, R102: REVLOW. -/
def Obligations.RevlowReversesTheLowBits : Prop :=
  ∀ (word count : Word) (c : Bool) (s : State),
    (count.toNat ≤ 32 → ∃ t, exec (.revlow word count c) s = .next t ∧
      t.latched (.revlow word count c) ∧ t.inputs = s.inputs ∧ s.sameWorking t ∧ t.posted { rx := t.rx } ∧
      (∀ i, i < count.toNat → t.rx.getLsbD i = word.getLsbD (count.toNat - 1 - i)) ∧
      (∀ i, count.toNat ≤ i → t.rx.getLsbD i = false)) ∧
    (32 < count.toNat → ∃ t, exec (.revlow word count c) s = .next t ∧
      t.latched (.revlow word count c) ∧ t.inputs = s.inputs ∧ s.sameWorking t ∧ t.failed .badOperand)

/-- From R102 and R105 (the law of 40_bit_primitives.md section 3): REVLOW twice with one count keeps exactly the low
`count` bits. -/
def Obligations.RevlowTwiceKeepsTheLowBits : Prop :=
  ∀ (word count : Word) (c c' : Bool) (s : State), count.toNat ≤ 32 →
    ∃ t u, exec (.revlow word count c) s = .next t ∧ exec (.revlow t.rx count c') t = .next u ∧
      u.code = .ok ∧ u.rx.toNat = word.toNat % 2 ^ count.toNat

/-- From R102 and R105 (40_bit_primitives.md section 3, law e): as a number, REVLOW's result is the run's digits read
with the lowest bit as the most significant digit. -/
def Obligations.RevlowReadsTheLowestBitAsMostSignificant : Prop :=
  ∀ (word count : Word) (c : Bool) (s : State), count.toNat ≤ 32 →
    ∃ t, exec (.revlow word count c) s = .next t ∧ t.code = .ok ∧ t.rx.toNat < 2 ^ count.toNat ∧
      t.rx.toNat = ∑ i ∈ Finset.range count.toNat, (word.getLsbD i).toNat * 2 ^ (count.toNat - 1 - i)

/-! ## Decimal parser -/

/-- R80: the three character classes. -/
def Obligations.CharacterClasses : Prop :=
  ∀ b : Byte,
    (0x30 ≤ b.toNat ∧ b.toNat ≤ 0x39 → classOf b = .digit (b.toNat - 0x30)) ∧
    (b.toNat = 0x2E → classOf b = .dot) ∧
    (¬(0x30 ≤ b.toNat ∧ b.toNat ≤ 0x39) ∧ b.toNat ≠ 0x2E → classOf b = .other)

/-- R120: ACCEPT of VALIDATE, PARSE and ENCODE starts the scanner; of the other registers only the latches and the
cleared results change. -/
def Obligations.StringCommandsStartTheScanner : Prop :=
  ∀ (a b : Word) (c : Bool) (s : State) (i : Instr),
    i = .validate a b c ∨ i = .parse a b c ∨ i = .encode a b c →
      ∃ t, exec i s = .next t ∧ t.latched i ∧ t.inputs = s.inputs ∧ s.sameExtractor t ∧ t.cleared ∧
        t.ph = .scan ∧ t.seen = false ∧ t.bad = false ∧ t.ovf = false ∧ t.dcnt = 0 ∧ t.num = 0

/-- R121: what one character of a string does to the parser registers; nothing else changes. The bounds on NUM are
under the invariant. -/
def Obligations.CharacterSymbolUpdatesTheScanner : Prop :=
  ∀ (s : State) (e : HostInput) (rest : List HostInput) (b : Byte),
    s.Inv → s.ph = .scan → s.inputs = e :: rest → e.rst = false → e.sym = some (encodeSymbol (.ch b)) →
      (¬(0x30 ≤ b.toNat ∧ b.toNat ≤ 0x39) ∧ b.toNat ≠ 0x2E →
        step s = .next { s with inputs := rest, bad := true }) ∧
      (b.toNat = 0x2E → s.seen = true → step s = .next { s with inputs := rest, bad := true }) ∧
      (b.toNat = 0x2E → s.seen = false → step s = .next { s with inputs := rest, seen := true }) ∧
      (0x30 ≤ b.toNat ∧ b.toNat ≤ 0x39 → s.seen = false → step s = .next { s with inputs := rest }) ∧
      (0x30 ≤ b.toNat ∧ b.toNat ≤ 0x39 → s.seen = true → s.dcnt.toNat = 9 →
        step s = .next { s with inputs := rest, ovf := true }) ∧
      (0x30 ≤ b.toNat ∧ b.toNat ≤ 0x39 → s.seen = true → s.dcnt.toNat ≠ 9 →
        ∃ t, step s = .next t ∧ t = { s with inputs := rest, num := t.num, dcnt := t.dcnt } ∧
          t.dcnt.toNat = s.dcnt.toNat + 1 ∧ t.num.toNat = s.num.toNat * 10 + (b.toNat - 0x30))

/-- R123, with the END half of R32: what END does for each string operation, by the verdict of R123. -/
def Obligations.EndSymbolFinishesTheString : Prop :=
  ∀ (s : State) (e : HostInput) (rest : List HostInput) (v : Code),
    s.Inv → s.ph = .scan → s.inputs = e :: rest → e.rst = false → e.sym = some (encodeSymbol .endOfString) →
    v = (if s.bad = true then Code.invalidInput else if s.seen = false then Code.invalidInput
      else if s.ovf = true then Code.fracTooLong else if s.dcnt.toNat = 0 then Code.invalidInput else Code.ok) →
      (s.op = Opcode.validate → ∃ t, step s = .next t ∧ t.inputs = rest ∧ s.sameLatches t ∧ s.sameWorking t ∧
        t.posted { rx := if s.bad = true then 0 else 1 }) ∧
      (s.op = Opcode.parse → v = .ok → ∃ t, step s = .next t ∧ t.inputs = rest ∧ s.sameLatches t ∧
        s.sameWorking t ∧ t.posted { rx := BitVec.ofNat 32 s.dcnt.toNat, ry := s.num }) ∧
      (s.op = Opcode.encode → v = .ok → ∃ t, step s = .next t ∧ t.inputs = rest ∧ s.sameLatches t ∧ t.cleared ∧
        t.ph = .iter ∧ t.seen = s.seen ∧ t.bad = s.bad ∧ t.ovf = s.ovf ∧ t.dcnt = s.dcnt ∧ t.num = s.num ∧
        t.edge.toNat = 10 ^ s.dcnt.toNat ∧ t.rem = s.num ∧ t.acc = 0 ∧ t.pos = 0) ∧
      (s.op = Opcode.parse ∨ s.op = Opcode.encode → v ≠ .ok → ∃ t, step s = .next t ∧ t.inputs = rest ∧
        s.sameLatches t ∧ s.sameWorking t ∧ t.failed v)

/-- From R124 and R122: VALIDATE of any string, from IDLE, posts the structural verdict after its L + 2 edges (the host
delivers one symbol an edge, and every edge takes an enabled step: notes/assumptions/2.md). -/
def Obligations.ValidateReportsTheStructuralVerdict : Prop :=
  ∀ (a b : Word) (c : Bool) (str : List Byte) (s : State), s.ph = .idle →
    ∃ t, steps (str.length + 2) (s.facing (stringEdges (.validate a b c) str)) = .next t ∧
      t.latched (.validate a b c) ∧ t.inputs = [] ∧ s.sameExtractor t ∧
      (ValidDecimal str → t.posted { rx := 1 }) ∧ (¬ValidDecimal str → t.posted { rx := 0 })

/-- From R127, R125 and R126: PARSE of any string, from IDLE, posts the pair or the failure after its L + 2 edges (one
symbol an edge: notes/assumptions/2.md); the bytes before the point take no part. -/
def Obligations.ParseReportsThePair : Prop :=
  ∀ (a b : Word) (c : Bool) (str : List Byte) (s : State), s.ph = .idle →
    ∃ t, steps (str.length + 2) (s.facing (stringEdges (.parse a b c) str)) = .next t ∧
      t.latched (.parse a b c) ∧ t.inputs = [] ∧ s.sameExtractor t ∧
      (¬ValidDecimal str → t.failed .invalidInput) ∧
      (0x2E#8 ∉ str → t.failed .invalidInput) ∧
      (∀ whole frac, AllDigits whole → AllDigits frac → str = decimalString whole frac →
        (frac = [] → t.failed .invalidInput) ∧
        (9 < frac.length → t.failed .fracTooLong) ∧
        (1 ≤ frac.length → frac.length ≤ 9 →
          t.posted { rx := BitVec.ofNat 32 frac.length, ry := BitVec.ofNat 32 (digitsValue frac) } ∧
          digitsValue frac < 10 ^ frac.length))

/-! ## Lookup ROM -/

/-- R152, R52: LOOKUP, of an entry `(5^e, e)` of R51 or of a miss. -/
def Obligations.LookupReadsThePowerOfFive : Prop :=
  ∀ (index b : Word) (c : Bool) (s : State),
    (1 ≤ index.toNat ∧ index.toNat ≤ 23 → ∃ t, exec (.lookup index b c) s = .next t ∧
      t.latched (.lookup index b c) ∧ t.inputs = s.inputs ∧ s.sameWorking t ∧
      t.posted { rw := BitVec.ofNat 128 (5 ^ index.toNat), rx := index }) ∧
    (index.toNat = 0 ∨ 24 ≤ index.toNat → ∃ t, exec (.lookup index b c) s = .next t ∧
      t.latched (.lookup index b c) ∧ t.inputs = s.inputs ∧ s.sameWorking t ∧ t.failed .unsupportedExponent)

/-- From R150 and R152: what LOOKUP posts is exactly 2^−index as a decimal fraction. -/
def Obligations.LookupIsExact : Prop :=
  ∀ (index b : Word) (c : Bool) (s t : State), exec (.lookup index b c) s = .next t → t.code = .ok →
    t.rw.toNat * 2 ^ index.toNat = 10 ^ t.rx.toNat

/-! ## Significand extractor -/

/-- From R31 and R162: ACCEPT of EXTRACT checks the pair and starts the extractor. -/
def Obligations.ExtractChecksThePairAndStarts : Prop :=
  ∀ (d n : Word) (c : Bool) (s : State),
    (d.toNat ≤ 9 ∧ n.toNat < 10 ^ d.toNat → ∃ t, exec (.extract d n c) s = .next t ∧
      t.latched (.extract d n c) ∧ t.inputs = s.inputs ∧ t.cleared ∧ t.ph = .iter ∧
      t.seen = s.seen ∧ t.bad = s.bad ∧ t.ovf = s.ovf ∧ t.dcnt.toNat = d.toNat ∧ t.num = n ∧
      t.edge.toNat = 10 ^ d.toNat ∧ t.rem = n ∧ t.acc = 0 ∧ t.pos = 0) ∧
    (9 < d.toNat ∨ 10 ^ d.toNat ≤ n.toNat → ∃ t, exec (.extract d n c) s = .next t ∧
      t.latched (.extract d n c) ∧ t.inputs = s.inputs ∧ s.sameWorking t ∧ t.failed .badOperand)

/-- R33: one ITER step. -/
def Obligations.IterationDoublesAndRecordsOneDigit : Prop :=
  ∀ (s : State) (d2 r : Nat) (bit : Bool) (acc : Word),
    s.Inv → s.ph = .iter → (∀ e rest, s.inputs = e :: rest → e.rst = false) →
    d2 = 2 * s.rem.toNat → bit = decide (s.edge.toNat ≤ d2) →
    r = (if bit = true then d2 - s.edge.toNat else d2) → acc = setBit s.acc s.pos.toNat bit →
      ∃ t, step s = .next t ∧ t.inputs = s.inputs.tail ∧ s.sameLatches t ∧ t.acc = acc ∧ t.rem.toNat = r ∧
        r < s.edge.toNat ∧ t.edge = s.edge ∧ t.seen = s.seen ∧ t.bad = s.bad ∧ t.ovf = s.ovf ∧
        t.dcnt = s.dcnt ∧ t.num = s.num ∧
        (r ≠ 0 ∧ s.pos.toNat ≠ 22 → t.ph = .iter ∧ t.pos.toNat = s.pos.toNat + 1 ∧ t.cleared) ∧
        (r = 0 ∨ s.pos.toNat = 22 → t.pos = s.pos ∧
          (reverseLowBits acc (s.pos.toNat + 1)).toNat < 2 ^ (s.pos.toNat + 1) ∧
          (s.op = Opcode.extract → t.posted
            { rx := reverseLowBits acc (s.pos.toNat + 1), ry := BitVec.ofNat 32 (s.pos.toNat + 1),
              trunc := decide (r ≠ 0) }) ∧
          (s.op = Opcode.encode → t.posted
            { rx := BitVec.ofNat 32
                ((s.pos.toNat + 1) * 2 ^ 23 + (reverseLowBits acc (s.pos.toNat + 1)).toNat),
              trunc := decide (r ≠ 0) }))

/-- From R162 and R160: EXTRACT of a good pair, from IDLE, posts `extract(d, n)` after 1 ACCEPT and as many ITER edges as
the exponent it returns; any other pair is refused by ACCEPT. That every edge takes an enabled step, so that edges count
steps, is the model's choice: notes/assumptions/2.md. -/
def Obligations.ExtractPostsTheLoopsResult : Prop :=
  ∀ (d n : Word) (c : Bool) (s : State), s.ph = .idle →
    (d.toNat ≤ 9 ∧ n.toNat < 10 ^ d.toNat →
      ∃ t, steps (1 + (extractPair d.toNat n.toNat).exponent) (s.facing (commandEdges (.extract d n c))) = .next t ∧
        t.latched (.extract d n c) ∧ t.inputs = [] ∧
        t.posted
          { rx := (extractPair d.toNat n.toNat).significand,
            ry := BitVec.ofNat 32 (extractPair d.toNat n.toNat).exponent,
            trunc := (extractPair d.toNat n.toNat).truncated }) ∧
    (9 < d.toNat ∨ 10 ^ d.toNat ≤ n.toNat →
      ∃ t, steps 1 (s.facing (commandEdges (.extract d n c))) = .next t ∧
        t.latched (.extract d n c) ∧ t.inputs = [] ∧ t.failed .badOperand)

/-- From R160 (43_significand_extractor.md section 3, closed form): the loop computes the fraction truncated toward
zero to `k` binary digits. -/
def Obligations.ExtractionIsTheTruncatedFraction : Prop :=
  ∀ d n : Nat, d ≤ 9 → n < 10 ^ d → ∃ k, PassCount d n k ∧
    (extractPair d n).exponent = k ∧
    (extractPair d n).significand.toNat = n * 2 ^ k / 10 ^ d ∧
    (extractPair d n).truncated = decide (n * 2 ^ k % 10 ^ d ≠ 0)

/-- From R160 (43_significand_extractor.md section 3, ranges): the extraction is exact iff `5^d` divides the numerator;
then the exponent is at most the digit count, else it is 23. -/
def Obligations.ExtractionIsExactIffFivesDivide : Prop :=
  ∀ d n : Nat, 1 ≤ d → d ≤ 9 → n < 10 ^ d →
    ((extractPair d n).truncated = false ↔ 5 ^ d ∣ n) ∧
    ((extractPair d n).truncated = false → 1 ≤ (extractPair d n).exponent ∧ (extractPair d n).exponent ≤ d) ∧
    ((extractPair d n).truncated = true → (extractPair d n).exponent = 23) ∧
    (extractPair d n).significand.toNat < 2 ^ (extractPair d n).exponent

/-- From R33 and R34 (43_significand_extractor.md section 3, termination): from ITER the core completes with CODE = OK
within 23 − POS edges, whatever the host presents short of a reset. The spec bounds the ITER steps; that an edge is a step
is the model's choice: notes/assumptions/2.md. -/
def Obligations.IterationsEndWithinTheCap : Prop :=
  ∀ s : State, s.Inv → s.ph = .iter → (∀ e ∈ s.inputs, e.rst = false) →
    ∃ n t, 1 ≤ n ∧ n ≤ 23 - s.pos.toNat ∧ steps n s = .next t ∧ t.ph = .idle ∧ t.done = true ∧ t.code = .ok

/-! ## Packer and unpacker -/

/-- R182, R180: PACK. -/
def Obligations.PackInsertsTheFields : Prop :=
  ∀ (e g : Word) (sign : Bool) (s : State),
    (e.toNat ≤ 255 ∧ g.toNat < 2 ^ 23 → ∃ t, exec (.pack e g sign) s = .next t ∧
      t.latched (.pack e g sign) ∧ t.inputs = s.inputs ∧ s.sameWorking t ∧ t.posted { rx := t.rx } ∧
      t.rx.toNat = sign.toNat * 2 ^ 31 + e.toNat * 2 ^ 23 + g.toNat) ∧
    (255 < e.toNat ∨ 2 ^ 23 ≤ g.toNat → ∃ t, exec (.pack e g sign) s = .next t ∧
      t.latched (.pack e g sign) ∧ t.inputs = s.inputs ∧ s.sameWorking t ∧ t.failed .badOperand)

/-- R183, R181: UNPACK. -/
def Obligations.UnpackExtractsTheFields : Prop :=
  ∀ (word b : Word) (c : Bool) (s : State), ∃ t, exec (.unpack word b c) s = .next t ∧
    t.latched (.unpack word b c) ∧ t.inputs = s.inputs ∧ s.sameWorking t ∧
    t.posted { rx := BitVec.ofNat 32 (word.toNat % 2 ^ 23), ry := BitVec.ofNat 32 (word.toNat / 2 ^ 23 % 2 ^ 8),
               rz := BitVec.ofNat 32 (word.toNat / 2 ^ 31) }

/-- From R180 and R181 (44_pack_unpack.md section 3): PACK of what UNPACK posts gives the word back, and UNPACK of what
PACK posts gives the fields back. -/
def Obligations.PackAndUnpackAreInverse : Prop :=
  (∀ (word b : Word) (c : Bool) (s : State), ∃ t u, exec (.unpack word b c) s = .next t ∧
    exec (.pack t.ry t.rx (t.rz.getLsbD 0)) t = .next u ∧ u.code = .ok ∧ u.rx = word) ∧
  (∀ (e g b : Word) (sign c : Bool) (s : State), e.toNat ≤ 255 → g.toNat < 2 ^ 23 →
    ∃ t u, exec (.pack e g sign) s = .next t ∧ exec (.unpack t.rx b c) t = .next u ∧
      u.code = .ok ∧ u.rx = g ∧ u.ry = e ∧ u.rz.toNat = sign.toNat)

/-! ## End-to-end operations -/

/-- From R190 and R191: ENCODE of any string, from IDLE: a failure of the scan after L + 2 edges, else the packed word of
the truncated fraction after one further edge for each pass (one symbol an edge: notes/assumptions/2.md). -/
def Obligations.EncodePacksTheTruncatedFraction : Prop :=
  ∀ (a b : Word) (c : Bool) (str : List Byte) (s : State), s.ph = .idle →
    (∀ v, (¬ValidDecimal str ∨ 0x2E#8 ∉ str ∨ (∃ whole, AllDigits whole ∧ str = decimalString whole [])) ∧
          v = Code.invalidInput ∨
        (∃ whole frac, AllDigits whole ∧ AllDigits frac ∧ str = decimalString whole frac ∧ 9 < frac.length) ∧
          v = Code.fracTooLong →
      ∃ t, steps (str.length + 2) (s.facing (stringEdges (.encode a b c) str)) = .next t ∧
        t.latched (.encode a b c) ∧ t.inputs = [] ∧ s.sameExtractor t ∧ t.failed v) ∧
    (∀ whole frac, AllDigits whole → AllDigits frac → str = decimalString whole frac →
      1 ≤ frac.length → frac.length ≤ 9 →
      ∃ k t, PassCount frac.length (digitsValue frac) k ∧
        steps (str.length + 2 + k) (s.facing (stringEdges (.encode a b c) str)) = .next t ∧
        t.latched (.encode a b c) ∧ t.inputs = [] ∧
        t.posted
          { rx := BitVec.ofNat 32 (k * 2 ^ 23 + digitsValue frac * 2 ^ k / 10 ^ frac.length),
            trunc := decide (digitsValue frac * 2 ^ k % 10 ^ frac.length ≠ 0) })

/-- R194, R195, R197: DECODE. -/
def Obligations.DecodeRendersTheProduct : Prop :=
  ∀ (word b : Word) (c : Bool) (s : State) (e g : Nat),
    e = word.toNat / 2 ^ 23 % 2 ^ 8 → g = word.toNat % 2 ^ 23 →
    (1 ≤ e ∧ e ≤ 23 → ∃ t, exec (.decode word b c) s = .next t ∧
      t.latched (.decode word b c) ∧ t.inputs = s.inputs ∧ s.sameWorking t ∧
      t.posted { bytes := fractionString e (5 ^ e * g) }) ∧
    (e = 0 ∨ 24 ≤ e → ∃ t, exec (.decode word b c) s = .next t ∧
      t.latched (.decode word b c) ∧ t.inputs = s.inputs ∧ s.sameWorking t ∧ t.failed .unsupportedExponent)

/-- From R195 (45_encode_decode.md section 2, output length): a successful DECODE posts 3 to 25 bytes, exactly `2 + e`
when the significand is below `2^e`. -/
def Obligations.DecodeFillsAtMostTheBuffer : Prop :=
  ∀ (word b : Word) (c : Bool) (s t : State), exec (.decode word b c) s = .next t → t.code = .ok →
    3 ≤ t.olen.toNat ∧ t.olen.toNat ≤ 25 ∧
    (word.toNat % 2 ^ 23 < 2 ^ (word.toNat / 2 ^ 23 % 2 ^ 8) →
      t.olen.toNat = 2 + word.toNat / 2 ^ 23 % 2 ^ 8)

/-- R200: bit 31 of the word has no part in DECODE. -/
def Obligations.DecodeIgnoresTheSignBit : Prop :=
  ∀ (word b : Word) (c : Bool) (s : State),
    ∃ t, exec (.decode word b c) s = .next t ∧
      exec (.decode (word &&& 0x7FFFFFFF#32) b c) s = .next { t with opa := word &&& 0x7FFFFFFF#32 }

/-- From R195 (45_encode_decode.md section 2): when the significand is below `2^e`, the digits DECODE posts after "0."
are the exact decimal expansion of `significand · 2^−e`. -/
def Obligations.DecodeIsExact : Prop :=
  ∀ (word b : Word) (c : Bool) (s t : State), exec (.decode word b c) s = .next t → t.code = .ok →
    word.toNat % 2 ^ 23 < 2 ^ (word.toNat / 2 ^ 23 % 2 ^ 8) →
    ∃ digits, t.outputString = 0x30#8 :: 0x2E#8 :: digits ∧ AllDigits digits ∧
      digitsValue digits * 2 ^ (word.toNat / 2 ^ 23 % 2 ^ 8) = word.toNat % 2 ^ 23 * 10 ^ digits.length

/-- From R191 and R195 (45_encode_decode.md section 3, exact round trip): if ENCODE of a string completes with
TRUNC = 0, DECODE of its word posts "0." and the fraction without its trailing zeros ("0.0" if it is all zeros). -/
def Obligations.ExactRoundTrip : Prop :=
  ∀ (a b : Word) (c : Bool) (b' : Word) (c' : Bool) (whole frac : List Byte) (s : State),
    s.ph = .idle → AllDigits whole → AllDigits frac → 1 ≤ frac.length → frac.length ≤ 9 →
    ∃ k t u, k ≤ 23 ∧
      steps ((decimalString whole frac).length + 2 + k)
        (s.facing (stringEdges (.encode a b c) (decimalString whole frac))) = .next t ∧
      t.done = true ∧ exec (.decode t.rx b' c') t = .next u ∧ u.code = .ok ∧
      (t.trunc = false → u.outputString =
        0x30#8 :: 0x2E#8 :: (if dropTrailingZeros frac = [] then [0x30#8] else dropTrailingZeros frac))

/-- From R191 and R195 (45_encode_decode.md section 3, truncated round trip): if ENCODE completes with TRUNC = 1, DECODE
of its word posts 23 fractional digits of a value below the input and less than 2^−23 below it, never the input. -/
def Obligations.TruncatedRoundTrip : Prop :=
  ∀ (a b : Word) (c : Bool) (b' : Word) (c' : Bool) (whole frac : List Byte) (s : State),
    s.ph = .idle → AllDigits whole → AllDigits frac → 1 ≤ frac.length → frac.length ≤ 9 →
    ∃ k t u, k ≤ 23 ∧
      steps ((decimalString whole frac).length + 2 + k)
        (s.facing (stringEdges (.encode a b c) (decimalString whole frac))) = .next t ∧
      t.done = true ∧ exec (.decode t.rx b' c') t = .next u ∧ u.code = .ok ∧
      (t.trunc = true → u.olen = 25 ∧ u.outputString ≠ decimalString whole frac ∧
        ∃ digits, u.outputString = 0x30#8 :: 0x2E#8 :: digits ∧ AllDigits digits ∧ digits.length = 23 ∧
          digitsValue digits * 10 ^ frac.length < digitsValue frac * 10 ^ 23 ∧
          digitsValue frac * 10 ^ 23 < (digitsValue digits + 5 ^ 23) * 10 ^ frac.length)

/-- From R191 (30_encoding.md section 6, composite a): ENCODE fails as PARSE of the same string does, and else posts
what PACK gives of what EXTRACT gives of PARSE's pair. -/
def Obligations.EncodeIsParseThenExtractThenPack : Prop :=
  ∀ (a b : Word) (c c' : Bool) (str : List Byte) (s : State), s.ph = .idle →
    ∃ tp, steps (str.length + 2) (s.facing (stringEdges (.parse a b c) str)) = .next tp ∧ tp.done = true ∧
      (tp.code ≠ .ok → ∃ te, steps (str.length + 2) (s.facing (stringEdges (.encode a b c) str)) = .next te ∧
        te.failed tp.code) ∧
      (tp.code = .ok → ∃ k tx tk te,
        steps (1 + k) (s.facing (commandEdges (.extract tp.rx tp.ry c'))) = .next tx ∧
        tx.done = true ∧ tx.code = .ok ∧
        exec (.pack tx.ry tx.rx false) s = .next tk ∧ tk.code = .ok ∧
        steps (str.length + 2 + k) (s.facing (stringEdges (.encode a b c) str)) = .next te ∧
        te.posted { rx := tk.rx, trunc := tx.trunc })

/-- From R195 (30_encoding.md section 6, composite b): DECODE fails as LOOKUP of UNPACK's exponent does, and else posts
the rendered product of LOOKUP's numerator and UNPACK's significand. -/
def Obligations.DecodeIsUnpackThenLookup : Prop :=
  ∀ (word b : Word) (c : Bool) (s : State), ∃ tu tl td,
    exec (.unpack word b c) s = .next tu ∧ exec (.lookup tu.ry b c) s = .next tl ∧
    exec (.decode word b c) s = .next td ∧ td.code = tl.code ∧
    (tl.code = .ok → td.outputString = fractionString tl.rx.toNat (tl.rw.toNat * tu.rx.toNat))

/-! ## Reserved opcodes -/

/-- R73, R227: a reserved opcode is accepted and completes at once with IllegalOp; only the latches and STATUS change. -/
def Obligations.ReservedOpcodesAreIllegal : Prop :=
  ∀ (a b : Word) (c : Bool) (s : State) (i : Instr),
    i = .reserved0 a b c ∨ i = .reservedC a b c ∨ i = .reservedD a b c ∨ i = .reservedE a b c ∨
      i = .reservedF a b c →
      ∃ t, exec i s = .next t ∧ t.latched i ∧ t.inputs = s.inputs ∧ s.sameWorking t ∧ t.failed .illegalOp

/-! ## The machine as a whole -/

/-- From R34 and R258: in IDLE with no command, and in SCAN with no symbol, nothing changes. -/
def Obligations.NothingPresentedNothingChanges : Prop :=
  ∀ (s : State) (e : HostInput) (rest : List HostInput), s.inputs = e :: rest → e.rst = false →
    (s.ph = .idle → e.cmd = none → step s = .next { s with inputs := rest }) ∧
    (s.ph = .scan → e.sym = none → step s = .next { s with inputs := rest })

/-- From R34, R237 and R258: while no edge resets the core, an idle core with no command to come and a scanning core with
no symbol to come hold every register for any number of edges, whatever else is presented. -/
def Obligations.WaitingCoreHoldsItsState : Prop :=
  ∀ (s : State) (n : Nat), (∀ e ∈ s.inputs, e.rst = false) →
    (s.ph = .idle ∧ ∀ e ∈ s.inputs, e.cmd = none) ∨ (s.ph = .scan ∧ ∀ e ∈ s.inputs, e.sym = none) →
      steps n s = .next { s with inputs := s.inputs.drop n }

/-- R255: a command presented while the core is busy is not accepted, queued or an error: the edge is as if none had
been presented. One presented when the core is idle is accepted then. -/
def Obligations.CommandWhileBusyIsNotAccepted : Prop :=
  ∀ (s : State) (e : HostInput) (rest : List HostInput),
    (s.ph ≠ .idle → step (s.facing (e :: rest)) = step (s.facing ({ e with cmd := none } :: rest))) ∧
    (∀ i, s.ph = .idle → e.rst = false → e.cmd = some (encodeCommand i) →
      step (s.facing (e :: rest)) = exec i (s.facing rest))

/-- R256: a symbol presented outside SCAN is not accepted, also when it comes with a command. -/
def Obligations.SymbolOutsideScanIsNotAccepted : Prop :=
  ∀ (s : State) (e : HostInput) (rest : List HostInput), s.ph ≠ .scan →
    step (s.facing (e :: rest)) = step (s.facing ({ e with sym := none } :: rest))

/-- From R257: a string whose END is never delivered never completes: the core stays in SCAN and shows no result. -/
def Obligations.WithoutEndTheScanNeverEnds : Prop :=
  ∀ s : State, s.Inv → s.ph = .scan →
    (∀ e ∈ s.inputs, e.rst = false ∧ ∀ w, e.sym = some w → decodeSymbol w ≠ .endOfString) →
    ∀ n, ∃ t, steps n s = .next t ∧ t.ph = .scan ∧ t.op = s.op ∧ t.cleared

/-- From R34: which phase follows which, and by what (an edge without reset). -/
def Obligations.PhasesFollowTheTable : Prop :=
  ∀ s t : State, s.presented.rst = false → step s = .next t →
    (s.ph = .idle → t.ph = .scan → ∃ w a b c, s.presented.cmd = some w ∧
      (decodeCommand w = .validate a b c ∨ decodeCommand w = .parse a b c ∨ decodeCommand w = .encode a b c)) ∧
    (s.ph = .idle → t.ph = .iter → ∃ w d n c, s.presented.cmd = some w ∧ decodeCommand w = .extract d n c ∧
      d.toNat ≤ 9 ∧ n.toNat < 10 ^ d.toNat) ∧
    (s.ph = .scan → t.ph ≠ .scan → ∃ w, s.presented.sym = some w ∧ decodeSymbol w = .endOfString) ∧
    (s.ph = .scan → t.ph = .iter → s.op = Opcode.encode ∧ s.bad = false ∧ s.seen = true ∧ s.ovf = false ∧
      s.dcnt ≠ 0) ∧
    (s.ph = .iter → t.ph ≠ .scan)

/-- From R224: TRUNC becomes 1 only by the last pass of EXTRACT or ENCODE, and accepting any command clears it. -/
def Obligations.TruncComesOnlyFromTheExtractor : Prop :=
  (∀ s t : State, step s = .next t → t.trunc = true → s.trunc = false →
    s.ph = .iter ∧ t.ph = .idle ∧ t.code = .ok ∧ (s.op = Opcode.extract ∨ s.op = Opcode.encode)) ∧
  (∀ (i : Instr) (s : State), ∃ t, exec i s = .next t ∧ t.trunc = false)

/-- From R220: the codes each command can complete its own ACCEPT with, and those END can complete a string operation with. -/
def Obligations.CodesHaveTheListedCauses : Prop :=
  (∀ (i : Instr) (s t : State), exec i s = .next t → t.done = true →
    match i with
    | .setbit _ _ _ | .getbit _ _ _ | .revlow _ _ _ | .pack _ _ _ => t.code = .ok ∨ t.code = .badOperand
    | .validate _ _ _ | .parse _ _ _ | .encode _ _ _ => False
    | .lookup _ _ _ | .decode _ _ _ => t.code = .ok ∨ t.code = .unsupportedExponent
    | .extract _ _ _ => t.code = .badOperand
    | .unpack _ _ _ => t.code = .ok
    | .reserved0 _ _ _ | .reservedC _ _ _ | .reservedD _ _ _ | .reservedE _ _ _ | .reservedF _ _ _ =>
      t.code = .illegalOp) ∧
  (∀ s t : State, s.ph = .scan → s.Inv → s.presented.rst = false → step s = .next t → t.done = true →
    (s.op = Opcode.validate → t.code = .ok) ∧
    (s.op = Opcode.parse → t.code = .ok ∨ t.code = .invalidInput ∨ t.code = .fracTooLong) ∧
    (s.op = Opcode.encode → t.code = .invalidInput ∨ t.code = .fracTooLong)) ∧
  (∀ s t : State, s.ph = .iter → s.Inv → s.presented.rst = false → step s = .next t → t.code = .ok)

/-- R74: ports an operation does not use change nothing but the latches, and no step after ACCEPT reads those. -/
def Obligations.UnusedOperandsOnlyReachTheLatches : Prop :=
  (∀ (s t : State) (a b : Word) (c : Bool), s.ph ≠ .idle → s.presented.rst = false → step s = .next t →
    step { s with opa := a, opb := b, opc := c } = .next { t with opa := a, opb := b, opc := c }) ∧
  ∀ (a b a' b' : Word) (c c' : Bool) (s : State),
    (∃ t, exec (.getbit a b c) s = .next t ∧ exec (.getbit a b c') s = .next { t with opc := c' }) ∧
    (∃ t, exec (.revlow a b c) s = .next t ∧ exec (.revlow a b c') s = .next { t with opc := c' }) ∧
    (∃ t, exec (.extract a b c) s = .next t ∧ exec (.extract a b c') s = .next { t with opc := c' }) ∧
    (∃ t, exec (.lookup a b c) s = .next t ∧
      exec (.lookup a b' c') s = .next { t with opb := b', opc := c' }) ∧
    (∃ t, exec (.unpack a b c) s = .next t ∧
      exec (.unpack a b' c') s = .next { t with opb := b', opc := c' }) ∧
    (∃ t, exec (.decode a b c) s = .next t ∧
      exec (.decode a b' c') s = .next { t with opb := b', opc := c' }) ∧
    (∃ t, exec (.validate a b c) s = .next t ∧
      exec (.validate a' b' c') s = .next { t with opa := a', opb := b', opc := c' }) ∧
    (∃ t, exec (.parse a b c) s = .next t ∧
      exec (.parse a' b' c') s = .next { t with opa := a', opb := b', opc := c' }) ∧
    (∃ t, exec (.encode a b c) s = .next t ∧
      exec (.encode a' b' c') s = .next { t with opa := a', opb := b', opc := c' })

/-- From R7 and R37 (10_state.md section 3, history independence): two idle cores whose host presents the same, a command
or a reset first, show the host the same for ever, whatever their registers held before. That the two runs agree edge by
edge rests on the model's choice that every edge takes an enabled step: notes/assumptions/2.md. -/
def Obligations.OutcomesDoNotDependOnHistory : Prop :=
  ∀ s₁ s₂ : State, s₁.ph = .idle → s₂.ph = .idle → s₁.inputs = s₂.inputs →
    (s₁.presented.rst = true ∨ s₁.presented.cmd ≠ none) →
    ∀ n, ∃ t₁ t₂, steps (n + 1) s₁ = .next t₁ ∧ steps (n + 1) s₂ = .next t₂ ∧
      t₁.outputs = t₂.outputs ∧ ∀ i, t₁.obData i = t₂.obData i

/-! ## The output buffer -/

/-- From R54, R55 and R56: indices 0 to 24 read the buffer's byte, 25 to 31 read 0x00; a byte the core writes reads back,
and writing one byte changes no other. The canonical form a write keeps is the model's: notes/assumptions/7.md. -/
def Obligations.BufferReadsGiveTheBytesWritten : Prop :=
  (∀ (s : State) (i : BitVec 5),
    (i.toNat ≤ 24 → s.obData i = s.obuf.read i.toNat) ∧ (25 ≤ i.toNat → s.obData i = 0x00#8)) ∧
  (∀ (m : Memory) (i j : Nat) (b : Byte), m.wf = true → i < 25 →
    (m.write i b).wf = true ∧ (m.write i b).read j = if i = j then b else m.read j)

/-! ## The output ports -/

/-- From R70, R22, R81 and R259: what the output ports show. The ready and busy ports follow PH, the others are the
registers, CODE by its number; and a busy core shows no result, at any read index. That the ports stand beside State and
not in it is the model's reading: notes/assumptions/17.md. -/
def Obligations.OutputPortsShowTheState : Prop :=
  (∀ s : State,
    (s.outputs.cmdReady = true ↔ s.ph = .idle) ∧ (s.outputs.symReady = true ↔ s.ph = .scan) ∧
    (s.outputs.busy = true ↔ s.ph ≠ .idle) ∧ s.outputs.done = s.done ∧ s.outputs.trunc = s.trunc ∧
    s.outputs.rx = s.rx ∧ s.outputs.ry = s.ry ∧ s.outputs.rz = s.rz ∧ s.outputs.rw = s.rw ∧ s.outputs.olen = s.olen ∧
    s.outputs.code.toNat =
      match s.code with
      | .ok => 0 | .invalidInput => 1 | .unsupportedExponent => 2 | .fracTooLong => 3 | .badOperand => 4
      | .illegalOp => 5) ∧
  (∀ s : State, s.Inv → s.outputs.busy = true →
    s.outputs.cmdReady = false ∧ s.outputs.done = false ∧ s.outputs.code = 0 ∧ s.outputs.trunc = false ∧
    s.outputs.rx = 0 ∧ s.outputs.ry = 0 ∧ s.outputs.rz = 0 ∧ s.outputs.rw = 0 ∧ s.outputs.olen = 0 ∧
    ∀ i, s.obData i = 0x00#8)
end

