-- ==== Sys2Proof/Laws/State.lean ====
section
/-! SUPPORT. Every register after every update of State, so that no proof unfolds a record update. -/

namespace Sys2Proof.Machine

/-! ## Step ACCEPT's common part -/

@[simp] theorem State.accept_op (s : State) (op : BitVec 4) (a b : Word) (c : Bool) : (s.accept op a b c).op = op := rfl
@[simp] theorem State.accept_opa (s : State) (op : BitVec 4) (a b : Word) (c : Bool) : (s.accept op a b c).opa = a := rfl
@[simp] theorem State.accept_opb (s : State) (op : BitVec 4) (a b : Word) (c : Bool) : (s.accept op a b c).opb = b := rfl
@[simp] theorem State.accept_opc (s : State) (op : BitVec 4) (a b : Word) (c : Bool) : (s.accept op a b c).opc = c := rfl
@[simp] theorem State.accept_ph (s : State) (op : BitVec 4) (a b : Word) (c : Bool) : (s.accept op a b c).ph = s.ph := rfl
@[simp] theorem State.accept_seen (s : State) (op : BitVec 4) (a b : Word) (c : Bool) : (s.accept op a b c).seen = s.seen := rfl
@[simp] theorem State.accept_bad (s : State) (op : BitVec 4) (a b : Word) (c : Bool) : (s.accept op a b c).bad = s.bad := rfl
@[simp] theorem State.accept_ovf (s : State) (op : BitVec 4) (a b : Word) (c : Bool) : (s.accept op a b c).ovf = s.ovf := rfl
@[simp] theorem State.accept_dcnt (s : State) (op : BitVec 4) (a b : Word) (c : Bool) : (s.accept op a b c).dcnt = s.dcnt := rfl
@[simp] theorem State.accept_num (s : State) (op : BitVec 4) (a b : Word) (c : Bool) : (s.accept op a b c).num = s.num := rfl
@[simp] theorem State.accept_edge (s : State) (op : BitVec 4) (a b : Word) (c : Bool) : (s.accept op a b c).edge = s.edge := rfl
@[simp] theorem State.accept_rem (s : State) (op : BitVec 4) (a b : Word) (c : Bool) : (s.accept op a b c).rem = s.rem := rfl
@[simp] theorem State.accept_acc (s : State) (op : BitVec 4) (a b : Word) (c : Bool) : (s.accept op a b c).acc = s.acc := rfl
@[simp] theorem State.accept_pos (s : State) (op : BitVec 4) (a b : Word) (c : Bool) : (s.accept op a b c).pos = s.pos := rfl
@[simp] theorem State.accept_rx (s : State) (op : BitVec 4) (a b : Word) (c : Bool) : (s.accept op a b c).rx = 0 := rfl
@[simp] theorem State.accept_ry (s : State) (op : BitVec 4) (a b : Word) (c : Bool) : (s.accept op a b c).ry = 0 := rfl
@[simp] theorem State.accept_rz (s : State) (op : BitVec 4) (a b : Word) (c : Bool) : (s.accept op a b c).rz = 0 := rfl
@[simp] theorem State.accept_rw (s : State) (op : BitVec 4) (a b : Word) (c : Bool) : (s.accept op a b c).rw = 0 := rfl
@[simp] theorem State.accept_olen (s : State) (op : BitVec 4) (a b : Word) (c : Bool) : (s.accept op a b c).olen = 0 := rfl
@[simp] theorem State.accept_done (s : State) (op : BitVec 4) (a b : Word) (c : Bool) : (s.accept op a b c).done = false := rfl
@[simp] theorem State.accept_code (s : State) (op : BitVec 4) (a b : Word) (c : Bool) : (s.accept op a b c).code = .ok := rfl
@[simp] theorem State.accept_trunc (s : State) (op : BitVec 4) (a b : Word) (c : Bool) : (s.accept op a b c).trunc = false := rfl
@[simp] theorem State.accept_obuf (s : State) (op : BitVec 4) (a b : Word) (c : Bool) : (s.accept op a b c).obuf = [] := rfl
@[simp] theorem State.accept_inputs (s : State) (op : BitVec 4) (a b : Word) (c : Bool) : (s.accept op a b c).inputs = s.inputs := rfl

/-! ## `complete` with CODE = OK -/

@[simp] theorem State.post_op (s : State) (r : Result) : (s.post r).op = s.op := rfl
@[simp] theorem State.post_opa (s : State) (r : Result) : (s.post r).opa = s.opa := rfl
@[simp] theorem State.post_opb (s : State) (r : Result) : (s.post r).opb = s.opb := rfl
@[simp] theorem State.post_opc (s : State) (r : Result) : (s.post r).opc = s.opc := rfl
@[simp] theorem State.post_ph (s : State) (r : Result) : (s.post r).ph = .idle := rfl
@[simp] theorem State.post_seen (s : State) (r : Result) : (s.post r).seen = s.seen := rfl
@[simp] theorem State.post_bad (s : State) (r : Result) : (s.post r).bad = s.bad := rfl
@[simp] theorem State.post_ovf (s : State) (r : Result) : (s.post r).ovf = s.ovf := rfl
@[simp] theorem State.post_dcnt (s : State) (r : Result) : (s.post r).dcnt = s.dcnt := rfl
@[simp] theorem State.post_num (s : State) (r : Result) : (s.post r).num = s.num := rfl
@[simp] theorem State.post_edge (s : State) (r : Result) : (s.post r).edge = s.edge := rfl
@[simp] theorem State.post_rem (s : State) (r : Result) : (s.post r).rem = s.rem := rfl
@[simp] theorem State.post_acc (s : State) (r : Result) : (s.post r).acc = s.acc := rfl
@[simp] theorem State.post_pos (s : State) (r : Result) : (s.post r).pos = s.pos := rfl
@[simp] theorem State.post_rx (s : State) (r : Result) : (s.post r).rx = r.rx := rfl
@[simp] theorem State.post_ry (s : State) (r : Result) : (s.post r).ry = r.ry := rfl
@[simp] theorem State.post_rz (s : State) (r : Result) : (s.post r).rz = r.rz := rfl
@[simp] theorem State.post_rw (s : State) (r : Result) : (s.post r).rw = r.rw := rfl
@[simp] theorem State.post_olen (s : State) (r : Result) : (s.post r).olen = BitVec.ofNat 5 r.bytes.length := rfl
@[simp] theorem State.post_done (s : State) (r : Result) : (s.post r).done = true := rfl
@[simp] theorem State.post_code (s : State) (r : Result) : (s.post r).code = .ok := rfl
@[simp] theorem State.post_trunc (s : State) (r : Result) : (s.post r).trunc = r.trunc := rfl
@[simp] theorem State.post_obuf (s : State) (r : Result) : (s.post r).obuf = Memory.writeBytes s.obuf 0 r.bytes := rfl
@[simp] theorem State.post_inputs (s : State) (r : Result) : (s.post r).inputs = s.inputs := rfl

/-! ## `complete` with CODE ≠ OK -/

@[simp] theorem State.raise_op (s : State) (k : Code) : (s.raise k).op = s.op := rfl
@[simp] theorem State.raise_opa (s : State) (k : Code) : (s.raise k).opa = s.opa := rfl
@[simp] theorem State.raise_opb (s : State) (k : Code) : (s.raise k).opb = s.opb := rfl
@[simp] theorem State.raise_opc (s : State) (k : Code) : (s.raise k).opc = s.opc := rfl
@[simp] theorem State.raise_ph (s : State) (k : Code) : (s.raise k).ph = .idle := rfl
@[simp] theorem State.raise_seen (s : State) (k : Code) : (s.raise k).seen = s.seen := rfl
@[simp] theorem State.raise_bad (s : State) (k : Code) : (s.raise k).bad = s.bad := rfl
@[simp] theorem State.raise_ovf (s : State) (k : Code) : (s.raise k).ovf = s.ovf := rfl
@[simp] theorem State.raise_dcnt (s : State) (k : Code) : (s.raise k).dcnt = s.dcnt := rfl
@[simp] theorem State.raise_num (s : State) (k : Code) : (s.raise k).num = s.num := rfl
@[simp] theorem State.raise_edge (s : State) (k : Code) : (s.raise k).edge = s.edge := rfl
@[simp] theorem State.raise_rem (s : State) (k : Code) : (s.raise k).rem = s.rem := rfl
@[simp] theorem State.raise_acc (s : State) (k : Code) : (s.raise k).acc = s.acc := rfl
@[simp] theorem State.raise_pos (s : State) (k : Code) : (s.raise k).pos = s.pos := rfl
@[simp] theorem State.raise_rx (s : State) (k : Code) : (s.raise k).rx = s.rx := rfl
@[simp] theorem State.raise_ry (s : State) (k : Code) : (s.raise k).ry = s.ry := rfl
@[simp] theorem State.raise_rz (s : State) (k : Code) : (s.raise k).rz = s.rz := rfl
@[simp] theorem State.raise_rw (s : State) (k : Code) : (s.raise k).rw = s.rw := rfl
@[simp] theorem State.raise_olen (s : State) (k : Code) : (s.raise k).olen = s.olen := rfl
@[simp] theorem State.raise_done (s : State) (k : Code) : (s.raise k).done = true := rfl
@[simp] theorem State.raise_code (s : State) (k : Code) : (s.raise k).code = k := rfl
@[simp] theorem State.raise_trunc (s : State) (k : Code) : (s.raise k).trunc = s.trunc := rfl
@[simp] theorem State.raise_obuf (s : State) (k : Code) : (s.raise k).obuf = s.obuf := rfl
@[simp] theorem State.raise_inputs (s : State) (k : Code) : (s.raise k).inputs = s.inputs := rfl

/-! ## `parser_init` -/

@[simp] theorem State.startScan_op (s : State) : (s.startScan).op = s.op := rfl
@[simp] theorem State.startScan_opa (s : State) : (s.startScan).opa = s.opa := rfl
@[simp] theorem State.startScan_opb (s : State) : (s.startScan).opb = s.opb := rfl
@[simp] theorem State.startScan_opc (s : State) : (s.startScan).opc = s.opc := rfl
@[simp] theorem State.startScan_ph (s : State) : (s.startScan).ph = .scan := rfl
@[simp] theorem State.startScan_seen (s : State) : (s.startScan).seen = false := rfl
@[simp] theorem State.startScan_bad (s : State) : (s.startScan).bad = false := rfl
@[simp] theorem State.startScan_ovf (s : State) : (s.startScan).ovf = false := rfl
@[simp] theorem State.startScan_dcnt (s : State) : (s.startScan).dcnt = 0 := rfl
@[simp] theorem State.startScan_num (s : State) : (s.startScan).num = 0 := rfl
@[simp] theorem State.startScan_edge (s : State) : (s.startScan).edge = s.edge := rfl
@[simp] theorem State.startScan_rem (s : State) : (s.startScan).rem = s.rem := rfl
@[simp] theorem State.startScan_acc (s : State) : (s.startScan).acc = s.acc := rfl
@[simp] theorem State.startScan_pos (s : State) : (s.startScan).pos = s.pos := rfl
@[simp] theorem State.startScan_rx (s : State) : (s.startScan).rx = s.rx := rfl
@[simp] theorem State.startScan_ry (s : State) : (s.startScan).ry = s.ry := rfl
@[simp] theorem State.startScan_rz (s : State) : (s.startScan).rz = s.rz := rfl
@[simp] theorem State.startScan_rw (s : State) : (s.startScan).rw = s.rw := rfl
@[simp] theorem State.startScan_olen (s : State) : (s.startScan).olen = s.olen := rfl
@[simp] theorem State.startScan_done (s : State) : (s.startScan).done = s.done := rfl
@[simp] theorem State.startScan_code (s : State) : (s.startScan).code = s.code := rfl
@[simp] theorem State.startScan_trunc (s : State) : (s.startScan).trunc = s.trunc := rfl
@[simp] theorem State.startScan_obuf (s : State) : (s.startScan).obuf = s.obuf := rfl
@[simp] theorem State.startScan_inputs (s : State) : (s.startScan).inputs = s.inputs := rfl

/-! ## `extractor_init` -/

@[simp] theorem State.startIter_op (s : State) (d : BitVec 4) (n g : Word) : (s.startIter d n g).op = s.op := rfl
@[simp] theorem State.startIter_opa (s : State) (d : BitVec 4) (n g : Word) : (s.startIter d n g).opa = s.opa := rfl
@[simp] theorem State.startIter_opb (s : State) (d : BitVec 4) (n g : Word) : (s.startIter d n g).opb = s.opb := rfl
@[simp] theorem State.startIter_opc (s : State) (d : BitVec 4) (n g : Word) : (s.startIter d n g).opc = s.opc := rfl
@[simp] theorem State.startIter_ph (s : State) (d : BitVec 4) (n g : Word) : (s.startIter d n g).ph = .iter := rfl
@[simp] theorem State.startIter_seen (s : State) (d : BitVec 4) (n g : Word) : (s.startIter d n g).seen = s.seen := rfl
@[simp] theorem State.startIter_bad (s : State) (d : BitVec 4) (n g : Word) : (s.startIter d n g).bad = s.bad := rfl
@[simp] theorem State.startIter_ovf (s : State) (d : BitVec 4) (n g : Word) : (s.startIter d n g).ovf = s.ovf := rfl
@[simp] theorem State.startIter_dcnt (s : State) (d : BitVec 4) (n g : Word) : (s.startIter d n g).dcnt = d := rfl
@[simp] theorem State.startIter_num (s : State) (d : BitVec 4) (n g : Word) : (s.startIter d n g).num = n := rfl
@[simp] theorem State.startIter_edge (s : State) (d : BitVec 4) (n g : Word) : (s.startIter d n g).edge = g := rfl
@[simp] theorem State.startIter_rem (s : State) (d : BitVec 4) (n g : Word) : (s.startIter d n g).rem = n := rfl
@[simp] theorem State.startIter_acc (s : State) (d : BitVec 4) (n g : Word) : (s.startIter d n g).acc = 0 := rfl
@[simp] theorem State.startIter_pos (s : State) (d : BitVec 4) (n g : Word) : (s.startIter d n g).pos = 0 := rfl
@[simp] theorem State.startIter_rx (s : State) (d : BitVec 4) (n g : Word) : (s.startIter d n g).rx = s.rx := rfl
@[simp] theorem State.startIter_ry (s : State) (d : BitVec 4) (n g : Word) : (s.startIter d n g).ry = s.ry := rfl
@[simp] theorem State.startIter_rz (s : State) (d : BitVec 4) (n g : Word) : (s.startIter d n g).rz = s.rz := rfl
@[simp] theorem State.startIter_rw (s : State) (d : BitVec 4) (n g : Word) : (s.startIter d n g).rw = s.rw := rfl
@[simp] theorem State.startIter_olen (s : State) (d : BitVec 4) (n g : Word) : (s.startIter d n g).olen = s.olen := rfl
@[simp] theorem State.startIter_done (s : State) (d : BitVec 4) (n g : Word) : (s.startIter d n g).done = s.done := rfl
@[simp] theorem State.startIter_code (s : State) (d : BitVec 4) (n g : Word) : (s.startIter d n g).code = s.code := rfl
@[simp] theorem State.startIter_trunc (s : State) (d : BitVec 4) (n g : Word) : (s.startIter d n g).trunc = s.trunc := rfl
@[simp] theorem State.startIter_obuf (s : State) (d : BitVec 4) (n g : Word) : (s.startIter d n g).obuf = s.obuf := rfl
@[simp] theorem State.startIter_inputs (s : State) (d : BitVec 4) (n g : Word) : (s.startIter d n g).inputs = s.inputs := rfl

/-! ## the end of an edge -/

@[simp] theorem State.advanceInputs_op (s : State) : (s.advanceInputs).op = s.op := rfl
@[simp] theorem State.advanceInputs_opa (s : State) : (s.advanceInputs).opa = s.opa := rfl
@[simp] theorem State.advanceInputs_opb (s : State) : (s.advanceInputs).opb = s.opb := rfl
@[simp] theorem State.advanceInputs_opc (s : State) : (s.advanceInputs).opc = s.opc := rfl
@[simp] theorem State.advanceInputs_ph (s : State) : (s.advanceInputs).ph = s.ph := rfl
@[simp] theorem State.advanceInputs_seen (s : State) : (s.advanceInputs).seen = s.seen := rfl
@[simp] theorem State.advanceInputs_bad (s : State) : (s.advanceInputs).bad = s.bad := rfl
@[simp] theorem State.advanceInputs_ovf (s : State) : (s.advanceInputs).ovf = s.ovf := rfl
@[simp] theorem State.advanceInputs_dcnt (s : State) : (s.advanceInputs).dcnt = s.dcnt := rfl
@[simp] theorem State.advanceInputs_num (s : State) : (s.advanceInputs).num = s.num := rfl
@[simp] theorem State.advanceInputs_edge (s : State) : (s.advanceInputs).edge = s.edge := rfl
@[simp] theorem State.advanceInputs_rem (s : State) : (s.advanceInputs).rem = s.rem := rfl
@[simp] theorem State.advanceInputs_acc (s : State) : (s.advanceInputs).acc = s.acc := rfl
@[simp] theorem State.advanceInputs_pos (s : State) : (s.advanceInputs).pos = s.pos := rfl
@[simp] theorem State.advanceInputs_rx (s : State) : (s.advanceInputs).rx = s.rx := rfl
@[simp] theorem State.advanceInputs_ry (s : State) : (s.advanceInputs).ry = s.ry := rfl
@[simp] theorem State.advanceInputs_rz (s : State) : (s.advanceInputs).rz = s.rz := rfl
@[simp] theorem State.advanceInputs_rw (s : State) : (s.advanceInputs).rw = s.rw := rfl
@[simp] theorem State.advanceInputs_olen (s : State) : (s.advanceInputs).olen = s.olen := rfl
@[simp] theorem State.advanceInputs_done (s : State) : (s.advanceInputs).done = s.done := rfl
@[simp] theorem State.advanceInputs_code (s : State) : (s.advanceInputs).code = s.code := rfl
@[simp] theorem State.advanceInputs_trunc (s : State) : (s.advanceInputs).trunc = s.trunc := rfl
@[simp] theorem State.advanceInputs_obuf (s : State) : (s.advanceInputs).obuf = s.obuf := rfl
@[simp] theorem State.advanceInputs_inputs (s : State) : (s.advanceInputs).inputs = s.inputs.tail := rfl

/-! ## one doubling pass -/

@[simp] theorem State.recordDigit_op (s : State) : s.recordDigit.op = s.op := rfl
@[simp] theorem State.recordDigit_opa (s : State) : s.recordDigit.opa = s.opa := rfl
@[simp] theorem State.recordDigit_opb (s : State) : s.recordDigit.opb = s.opb := rfl
@[simp] theorem State.recordDigit_opc (s : State) : s.recordDigit.opc = s.opc := rfl
@[simp] theorem State.recordDigit_ph (s : State) : s.recordDigit.ph = s.ph := rfl
@[simp] theorem State.recordDigit_seen (s : State) : s.recordDigit.seen = s.seen := rfl
@[simp] theorem State.recordDigit_bad (s : State) : s.recordDigit.bad = s.bad := rfl
@[simp] theorem State.recordDigit_ovf (s : State) : s.recordDigit.ovf = s.ovf := rfl
@[simp] theorem State.recordDigit_dcnt (s : State) : s.recordDigit.dcnt = s.dcnt := rfl
@[simp] theorem State.recordDigit_num (s : State) : s.recordDigit.num = s.num := rfl
@[simp] theorem State.recordDigit_edge (s : State) : s.recordDigit.edge = s.edge := rfl
@[simp] theorem State.recordDigit_rem (s : State) :
    s.recordDigit.rem = BitVec.ofNat 32 (doublingRem s.edge.toNat s.rem.toNat) := rfl
@[simp] theorem State.recordDigit_acc (s : State) :
    s.recordDigit.acc = setBit s.acc s.pos.toNat (doublingDigit s.edge.toNat s.rem.toNat) := rfl
@[simp] theorem State.recordDigit_pos (s : State) : s.recordDigit.pos = s.pos := rfl
@[simp] theorem State.recordDigit_rx (s : State) : s.recordDigit.rx = s.rx := rfl
@[simp] theorem State.recordDigit_ry (s : State) : s.recordDigit.ry = s.ry := rfl
@[simp] theorem State.recordDigit_rz (s : State) : s.recordDigit.rz = s.rz := rfl
@[simp] theorem State.recordDigit_rw (s : State) : s.recordDigit.rw = s.rw := rfl
@[simp] theorem State.recordDigit_olen (s : State) : s.recordDigit.olen = s.olen := rfl
@[simp] theorem State.recordDigit_done (s : State) : s.recordDigit.done = s.done := rfl
@[simp] theorem State.recordDigit_code (s : State) : s.recordDigit.code = s.code := rfl
@[simp] theorem State.recordDigit_trunc (s : State) : s.recordDigit.trunc = s.trunc := rfl
@[simp] theorem State.recordDigit_obuf (s : State) : s.recordDigit.obuf = s.obuf := rfl
@[simp] theorem State.recordDigit_inputs (s : State) : s.recordDigit.inputs = s.inputs := rfl

/-! ## the next position -/

@[simp] theorem State.nextPosition_op (s : State) : s.nextPosition.op = s.op := rfl
@[simp] theorem State.nextPosition_opa (s : State) : s.nextPosition.opa = s.opa := rfl
@[simp] theorem State.nextPosition_opb (s : State) : s.nextPosition.opb = s.opb := rfl
@[simp] theorem State.nextPosition_opc (s : State) : s.nextPosition.opc = s.opc := rfl
@[simp] theorem State.nextPosition_ph (s : State) : s.nextPosition.ph = s.ph := rfl
@[simp] theorem State.nextPosition_seen (s : State) : s.nextPosition.seen = s.seen := rfl
@[simp] theorem State.nextPosition_bad (s : State) : s.nextPosition.bad = s.bad := rfl
@[simp] theorem State.nextPosition_ovf (s : State) : s.nextPosition.ovf = s.ovf := rfl
@[simp] theorem State.nextPosition_dcnt (s : State) : s.nextPosition.dcnt = s.dcnt := rfl
@[simp] theorem State.nextPosition_num (s : State) : s.nextPosition.num = s.num := rfl
@[simp] theorem State.nextPosition_edge (s : State) : s.nextPosition.edge = s.edge := rfl
@[simp] theorem State.nextPosition_rem (s : State) : s.nextPosition.rem = s.rem := rfl
@[simp] theorem State.nextPosition_acc (s : State) : s.nextPosition.acc = s.acc := rfl
@[simp] theorem State.nextPosition_pos (s : State) : s.nextPosition.pos = s.pos + 1 := rfl
@[simp] theorem State.nextPosition_rx (s : State) : s.nextPosition.rx = s.rx := rfl
@[simp] theorem State.nextPosition_ry (s : State) : s.nextPosition.ry = s.ry := rfl
@[simp] theorem State.nextPosition_rz (s : State) : s.nextPosition.rz = s.rz := rfl
@[simp] theorem State.nextPosition_rw (s : State) : s.nextPosition.rw = s.rw := rfl
@[simp] theorem State.nextPosition_olen (s : State) : s.nextPosition.olen = s.olen := rfl
@[simp] theorem State.nextPosition_done (s : State) : s.nextPosition.done = s.done := rfl
@[simp] theorem State.nextPosition_code (s : State) : s.nextPosition.code = s.code := rfl
@[simp] theorem State.nextPosition_trunc (s : State) : s.nextPosition.trunc = s.trunc := rfl
@[simp] theorem State.nextPosition_obuf (s : State) : s.nextPosition.obuf = s.obuf := rfl
@[simp] theorem State.nextPosition_inputs (s : State) : s.nextPosition.inputs = s.inputs := rfl

/-! ## `complete` by its code (rule R35) -/

@[simp] theorem State.complete_ok (s : State) (r : Result) : s.complete .ok r = s.post r := rfl

theorem State.complete_of_ne (s : State) (r : Result) {k : Code} (h : k ≠ .ok) : s.complete k r = s.raise k := by
  simp [State.complete, h]

/-! ## What the host presents -/

@[simp] theorem State.facing_inputs (s : State) (es : List HostInput) : (s.facing es).inputs = es := rfl
@[simp] theorem State.facing_ph (s : State) (es : List HostInput) : (s.facing es).ph = s.ph := rfl
@[simp] theorem State.facing_facing (s : State) (es fs : List HostInput) : (s.facing es).facing fs = s.facing fs := rfl
@[simp] theorem State.presented_nil (s : State) (h : s.inputs = []) : s.presented = {} := by simp [State.presented, h]
theorem State.presented_cons (s : State) {e : HostInput} {rest : List HostInput} (h : s.inputs = e :: rest) :
    s.presented = e := by simp [State.presented, h]

theorem State.advanceInputs_facing (s : State) (e : HostInput) (rest : List HostInput) :
    (s.facing (e :: rest)).advanceInputs = s.facing rest := rfl

end Sys2Proof.Machine
end

