-- ==== Sys2Proof/Laws/Bits.lean ====
section
/-! SUPPORT. The bit primitives and the PackedValue fields, bit by bit and as numbers. -/

namespace Sys2Proof.Machine

/-- Rule R100, bit by bit. -/
theorem getLsbD_setBit (word : Word) (n : Nat) (value : Bool) (i : Nat) (hn : n < 32) :
    (setBit word n value).getLsbD i = if i = n then value else word.getLsbD i := by
  unfold setBit
  simp only [BitVec.getLsbD_or, BitVec.getLsbD_and, BitVec.getLsbD_not, BitVec.getLsbD_shiftLeft,
    BitVec.getLsbD_setWidth, BitVec.getLsbD_ofBool, BitVec.getLsbD_one]
  by_cases hi : i = n
  · subst hi; simp [hn]
  · by_cases h32 : i < 32
    · rcases Nat.lt_or_ge i n with h | h
      · simp [hi, h, h32]
      · have : ¬i < n := by omega
        have h0 : i - n ≠ 0 := by omega
        simp [hi, this, h32, h0]
    · simp [hi, h32, BitVec.getLsbD_of_ge word i (by omega)]

/-- Rule R102, bit by bit. -/
theorem getLsbD_reverseLowBits (word : Word) (count i : Nat) :
    (reverseLowBits word count).getLsbD i = (decide (i < 32) && decide (i < count) && word.getLsbD (count - 1 - i)) := by
  unfold reverseLowBits
  by_cases hi : i < 32
  · simp [hi]
  · rw [BitVec.getLsbD_of_ge _ _ (by omega)]; simp [hi]

theorem setBit_toNat_lt {word : Word} {n : Nat} (value : Bool) (hn : n < 32) (h : word.toNat < 2 ^ n) :
    (setBit word n value).toNat < 2 ^ (n + 1) := by
  refine Nat.lt_pow_two_of_testBit _ fun i hi => ?_
  rw [BitVec.testBit_toNat, getLsbD_setBit _ _ _ _ hn, if_neg (by omega), ← BitVec.testBit_toNat]
  exact Nat.testBit_lt_two_pow (lt_of_lt_of_le h (Nat.pow_le_pow_right (by omega) (by omega)))

theorem reverseLowBits_toNat_lt (word : Word) (count : Nat) : (reverseLowBits word count).toNat < 2 ^ count := by
  refine Nat.lt_pow_two_of_testBit _ fun i hi => ?_
  rw [BitVec.testBit_toNat, getLsbD_reverseLowBits]
  simp; omega

theorem reverseLowBits_zero (word : Word) : reverseLowBits word 0 = 0 := by
  apply BitVec.eq_of_getLsbD_eq
  intro i hi
  simp [getLsbD_reverseLowBits]

/-- The run's digits are taken in from the lowest bit on, each new one as the least significant. -/
theorem reverseLowBits_succ_toNat (word : Word) {count : Nat} (h : count < 32) :
    (reverseLowBits word (count + 1)).toNat =
      2 * (reverseLowBits word count).toNat + (word.getLsbD count).toNat := by
  apply Nat.eq_of_testBit_eq
  intro i
  rw [BitVec.testBit_toNat, getLsbD_reverseLowBits]
  cases i with
  | zero =>
    rw [Nat.testBit_zero, Nat.mul_add_mod]
    cases hb : word.getLsbD count with
    | false => simp [hb]
    | true => simp [hb]
  | succ i =>
    have hdiv : (2 * (reverseLowBits word count).toNat + (word.getLsbD count).toNat) / 2 =
        (reverseLowBits word count).toNat := by
      cases word.getLsbD count with
      | false => simp
      | true => simp; omega
    rw [Nat.testBit_succ, hdiv, BitVec.testBit_toNat, getLsbD_reverseLowBits,
      show count + 1 - 1 - (i + 1) = count - 1 - i by omega]
    by_cases hi : i < count
    · simp [hi, show i + 1 < 32 by omega, show i < 32 by omega]
    · simp [hi]

/-- Setting bits at or above `count` does not reach the reversed run. -/
theorem reverseLowBits_setBit_of_le (word : Word) (n : Nat) (value : Bool) {count : Nat} (hn : n < 32)
    (h : count ≤ n) : reverseLowBits (setBit word n value) count = reverseLowBits word count := by
  apply BitVec.eq_of_getLsbD_eq
  intro i hi
  rw [getLsbD_reverseLowBits, getLsbD_reverseLowBits]
  by_cases hc : i < count
  · rw [getLsbD_setBit _ _ _ _ hn, if_neg (by omega)]
  · simp [hc]

/-- Recording digit `n` and reversing `n + 1` digits appends it to the number of the first `n` digits. -/
theorem reverseLowBits_setBit_toNat (word : Word) (value : Bool) {n : Nat} (hn : n < 32) :
    (reverseLowBits (setBit word n value) (n + 1)).toNat =
      2 * (reverseLowBits word n).toNat + value.toNat := by
  rw [reverseLowBits_succ_toNat _ hn, reverseLowBits_setBit_of_le _ _ _ hn le_rfl, getLsbD_setBit _ _ _ _ hn,
    if_pos rfl]

@[simp] theorem boolWord_toNat (v : Bool) : (boolWord v).toNat = v.toNat := by cases v <;> rfl

theorem getBit_toNat (word : Word) (n : Nat) : (getBit word n).toNat = word.toNat / 2 ^ n % 2 := by
  rw [getBit, ← BitVec.testBit_toNat, Nat.testBit_eq_decide_div_mod_eq]
  rcases Nat.mod_two_eq_zero_or_one (word.toNat / 2 ^ n) with h | h <;> simp [h]

/-! ## PackedValue fields -/

theorem packFields_toNat (sign : Bool) (e : BitVec 8) (g : BitVec 23) :
    (packFields sign e g).toNat = sign.toNat * 2 ^ 31 + e.toNat * 2 ^ 23 + g.toNat := by
  have h : packFields sign e g = (BitVec.ofBool sign ++ e ++ g : BitVec 32) := by
    apply BitVec.eq_of_getLsbD_eq
    intro i hi
    unfold packFields
    simp only [BitVec.getLsbD_or, BitVec.getLsbD_shiftLeft, BitVec.getLsbD_setWidth, BitVec.getLsbD_append,
      BitVec.getLsbD_ofBool, Config.signPos, Config.expLsb]
    rcases Nat.lt_or_ge i 23 with h | h
    · have h31 : i < 31 := by omega
      simp [h, h31, hi]
    · have hg := BitVec.getLsbD_of_ge g i h
      rcases Nat.lt_or_ge i 31 with h' | h'
      · simp [show ¬i < 23 by omega, h', hi, hg, show i - 23 < 32 by omega, show i - 23 < 8 by omega]
      · obtain rfl : i = 31 := by omega
        simp
  have hg := g.isLt
  have he := e.isLt
  rw [h, BitVec.toNat_append, BitVec.toNat_append, BitVec.toNat_ofBool,
    ← Nat.shiftLeft_add_eq_or_of_lt hg, ← Nat.shiftLeft_add_eq_or_of_lt he, Nat.shiftLeft_eq, Nat.shiftLeft_eq]
  ring

theorem significandOf_toNat (word : Word) : (significandOf word).toNat = word.toNat % 2 ^ 23 := by
  rw [significandOf, BitVec.toNat_and]
  exact Nat.and_two_pow_sub_one_eq_mod word.toNat 23

theorem exponentOf_toNat (word : Word) : (exponentOf word).toNat = word.toNat / 2 ^ 23 % 2 ^ 8 := by
  have h : (word &&& 0x7FFFFFFF#32).toNat = word.toNat % 2 ^ 31 := by
    rw [BitVec.toNat_and]
    exact Nat.and_two_pow_sub_one_eq_mod word.toNat 31
  rw [exponentOf, BitVec.toNat_ushiftRight, h, Nat.shiftRight_eq_div_pow]
  have := word.isLt
  simp only [Config.expLsb]
  omega

theorem signOf_toNat (word : Word) : (signOf word).toNat = word.toNat / 2 ^ 31 := by
  rw [signOf, BitVec.toNat_ushiftRight, Nat.shiftRight_eq_div_pow]

end Sys2Proof.Machine
end

