-- ==== Sys2Proof/Laws/Encoding.lean ====
section
/-! SUPPORT. The fields of a command word and of a symbol. -/

namespace Sys2Proof

theorem CommandWord.op_build (op : BitVec 4) (a b : Word) (c : Bool) :
    CommandWord.op (CommandWord.build op a b c) = op := by
  apply BitVec.eq_of_getLsbD_eq
  intro i hi
  simp only [CommandWord.op, CommandWord.build, BitVec.getLsbD_extractLsb', BitVec.getLsbD_append]
  simp [hi, show ¬65 + i < 32 by omega, show ¬65 + i - 32 < 32 by omega, show ¬65 + i - 32 - 32 < 1 by omega,
    show 65 + i - 32 - 32 - 1 = i by omega]

theorem CommandWord.c_build (op : BitVec 4) (a b : Word) (c : Bool) :
    CommandWord.c (CommandWord.build op a b c) = c := by
  simp only [CommandWord.c, CommandWord.build, BitVec.getLsbD_append]
  simp

theorem CommandWord.a_build (op : BitVec 4) (a b : Word) (c : Bool) :
    CommandWord.a (CommandWord.build op a b c) = a := by
  apply BitVec.eq_of_getLsbD_eq
  intro i hi
  simp only [CommandWord.a, CommandWord.build, BitVec.getLsbD_extractLsb', BitVec.getLsbD_append]
  simp [hi, show ¬32 + i < 32 by omega, show 32 + i - 32 = i by omega]

theorem CommandWord.b_build (op : BitVec 4) (a b : Word) (c : Bool) :
    CommandWord.b (CommandWord.build op a b c) = b := by
  apply BitVec.eq_of_getLsbD_eq
  intro i hi
  simp only [CommandWord.b, CommandWord.build, BitVec.getLsbD_extractLsb', BitVec.getLsbD_append]
  simp [hi]

/-- The four fields tile the command word. -/
theorem CommandWord.build_fields (w : CommandWord) :
    CommandWord.build (CommandWord.op w) (CommandWord.a w) (CommandWord.b w) (CommandWord.c w) = w := by
  apply BitVec.eq_of_getLsbD_eq
  intro i hi
  simp only [CommandWord.build, CommandWord.op, CommandWord.a, CommandWord.b, CommandWord.c,
    BitVec.getLsbD_append, BitVec.getLsbD_extractLsb', BitVec.getLsbD_ofBool]
  rcases Nat.lt_or_ge i 32 with h | h
  · simp [h]
  · rcases Nat.lt_or_ge i 64 with h' | h'
    · simp [show ¬i < 32 by omega, show i - 32 < 32 by omega, show 32 + (i - 32) = i by omega]
    · rcases Nat.lt_or_ge i 65 with h'' | h''
      · obtain rfl : i = 64 := by omega
        simp
      · simp [show ¬i < 32 by omega, show ¬i - 32 < 32 by omega, show ¬i - 32 - 32 < 1 by omega,
          show i - 32 - 32 - 1 < 4 by omega, show 65 + (i - 32 - 32 - 1) = i by omega]

theorem CommandWord.build_toNat (op : BitVec 4) (a b : Word) (c : Bool) :
    (CommandWord.build op a b c).toNat =
      op.toNat * 2 ^ 65 + c.toNat * 2 ^ 64 + a.toNat * 2 ^ 32 + b.toNat := by
  unfold CommandWord.build
  rw [BitVec.toNat_append, BitVec.toNat_append, BitVec.toNat_append, BitVec.toNat_ofBool,
    ← Nat.shiftLeft_add_eq_or_of_lt b.isLt, ← Nat.shiftLeft_add_eq_or_of_lt a.isLt,
    ← Nat.shiftLeft_add_eq_or_of_lt (by cases c <;> simp), Nat.shiftLeft_eq, Nat.shiftLeft_eq, Nat.shiftLeft_eq]
  ring

theorem decodeFields_opcode (op : BitVec 4) (a b : Word) (c : Bool) : (decodeFields op a b c).opcode = op := by
  have hz : ∀ op : BitVec 4, (decodeFields op 0 0 false).opcode = op := by decide
  refine Eq.trans ?_ (hz op)
  unfold decodeFields
  split <;> rfl

theorem decodeFields_operands (op : BitVec 4) (a b : Word) (c : Bool) :
    (decodeFields op a b c).operands = (a, b, c) := by
  unfold decodeFields
  split <;> rfl

theorem decodeSymbol_ch (data : Byte) : decodeSymbol (0#1 ++ data) = .ch data := by
  have h : (0#1 ++ data).getLsbD 8 = false := by
    simp only [BitVec.getLsbD_append]; simp
  have hb : (0#1 ++ data).extractLsb' 0 8 = data := by
    apply BitVec.eq_of_getLsbD_eq
    intro i hi
    simp only [BitVec.getLsbD_extractLsb', BitVec.getLsbD_append]
    simp [hi]
  unfold decodeSymbol
  rw [if_neg (by simpa using h), hb]

theorem decodeSymbol_endOfString (data : Byte) : decodeSymbol (1#1 ++ data) = .endOfString := by
  have h : (1#1 ++ data).getLsbD 8 = true := by
    simp only [BitVec.getLsbD_append]; simp
  unfold decodeSymbol
  rw [if_pos h]

@[simp] theorem decodeSymbol_encodeSymbol (sym : Symbol) : decodeSymbol (encodeSymbol sym) = sym := by
  cases sym with
  | endOfString => exact decodeSymbol_endOfString 0#8
  | ch b => exact decodeSymbol_ch b

end Sys2Proof
end

