-- ==== Sys2Proof/Laws/Memory.lean ====
section
/-! SUPPORT. OBUF: every operation keeps the canonical form, a byte written reads back, no other byte changes. -/

namespace Sys2Proof.Machine

@[simp] theorem Memory.read_nil (i : Nat) : Memory.read [] i = 0x00#8 := rfl

theorem Memory.wfFrom_cons {lo i : Nat} {b : Byte} {m : Memory} :
    Memory.wfFrom lo ((i, b) :: m) = true ↔
      lo ≤ i ∧ i < 25 ∧ b ≠ 0x00#8 ∧ Memory.wfFrom (i + 1) m = true := by
  simp only [Memory.wfFrom, Memory.unlisted, Bool.and_eq_true, decide_eq_true_eq, bne_iff_ne, and_assoc,
    Config.obufBytes]

theorem Memory.wfFrom_mono {lo lo' : Nat} {m : Memory} (h : Memory.wfFrom lo m = true) (hl : lo' ≤ lo) :
    Memory.wfFrom lo' m = true := by
  cases m with
  | nil => rfl
  | cons c m =>
    obtain ⟨h1, h2⟩ := Memory.wfFrom_cons.mp h
    exact Memory.wfFrom_cons.mpr ⟨by omega, h2⟩

/-- Nothing is listed below the bound. -/
theorem Memory.read_of_lt {lo i : Nat} {m : Memory} (h : Memory.wfFrom lo m = true) (hi : i < lo) :
    m.read i = 0x00#8 := by
  induction m generalizing lo with
  | nil => rfl
  | cons c m ih =>
    obtain ⟨j, b⟩ := c
    obtain ⟨h1, -, -, h4⟩ := Memory.wfFrom_cons.mp h
    simp only [Memory.read]
    rw [if_neg (by omega)]
    exact ih h4 (by omega)

theorem Memory.read_cons_self (i : Nat) (b : Byte) {m : Memory} (h : Memory.wfFrom (i + 1) m = true) :
    (Memory.cons i b m).read i = b := by
  unfold Memory.cons
  split
  · rename_i hb
    rw [Memory.read_of_lt h (by omega), hb]; rfl
  · simp [Memory.read]

theorem Memory.read_cons_ne {i j : Nat} (b : Byte) (m : Memory) (h : i ≠ j) :
    (Memory.cons i b m).read j = m.read j := by
  unfold Memory.cons
  split
  · rfl
  · simp [Memory.read, h]

theorem Memory.wfFrom_consByte {lo i : Nat} (b : Byte) {m : Memory} (h : Memory.wfFrom (i + 1) m = true)
    (hl : lo ≤ i) (hi : i < 25) : Memory.wfFrom lo (Memory.cons i b m) = true := by
  unfold Memory.cons
  split
  · exact Memory.wfFrom_mono h (by omega)
  · rename_i hb
    exact Memory.wfFrom_cons.mpr ⟨hl, hi, hb, h⟩

theorem Memory.wfFrom_write {lo i : Nat} (b : Byte) {m : Memory} (h : Memory.wfFrom lo m = true) (hl : lo ≤ i)
    (hi : i < 25) : Memory.wfFrom lo (m.write i b) = true := by
  induction m generalizing lo with
  | nil => exact Memory.wfFrom_consByte b rfl hl hi
  | cons c m ih =>
    obtain ⟨j, d⟩ := c
    obtain ⟨h1, h2, h3, h4⟩ := Memory.wfFrom_cons.mp h
    simp only [Memory.write]
    split
    · exact Memory.wfFrom_consByte b (Memory.wfFrom_cons.mpr ⟨by omega, h2, h3, h4⟩) hl hi
    · split
      · rename_i hij
        exact Memory.wfFrom_consByte b (hij ▸ h4) hl hi
      · exact Memory.wfFrom_cons.mpr ⟨h1, h2, h3, ih h4 (by omega)⟩

theorem Memory.read_writeFrom {lo i : Nat} (b : Byte) {m : Memory} (h : Memory.wfFrom lo m = true) (j : Nat) :
    (m.write i b).read j = if i = j then b else m.read j := by
  induction m generalizing lo with
  | nil =>
    by_cases hij : i = j
    · subst hij; simpa [Memory.write] using Memory.read_cons_self i b (m := []) rfl
    · simpa [Memory.write, hij] using Memory.read_cons_ne b [] hij
  | cons c m ih =>
    obtain ⟨k, d⟩ := c
    obtain ⟨h1, h2, h3, h4⟩ := Memory.wfFrom_cons.mp h
    have hrec := ih h4
    simp only [Memory.write]
    split
    · rename_i hik
      by_cases hij : i = j
      · subst hij
        rw [Memory.read_cons_self i b (Memory.wfFrom_cons.mpr ⟨by omega, h2, h3, h4⟩), if_pos rfl]
      · rw [Memory.read_cons_ne b _ hij, if_neg hij]
    · split
      · rename_i hik
        subst hik
        by_cases hij : i = j
        · subst hij
          rw [Memory.read_cons_self i b h4, if_pos rfl]
        · rw [Memory.read_cons_ne b _ hij, if_neg hij]
          simp [Memory.read, hij]
      · rename_i hlt hne
        simp only [Memory.read, hrec]
        by_cases hkj : k = j
        · subst hkj; simp [hne]
        · simp [hkj]

/-- The loop of rule R35 writes `bytes` from index `i` on and nothing else. -/
theorem Memory.read_writeBytes (bytes : List Byte) {m : Memory} {i : Nat} (h : m.wf = true)
    (hi : i + bytes.length ≤ 25) (j : Nat) :
    (m.writeBytes i bytes).read j = if i ≤ j ∧ j < i + bytes.length then bytes.getD (j - i) 0x00#8 else m.read j := by
  induction bytes generalizing m i with
  | nil =>
    simp only [Memory.writeBytes, List.length_nil]
    rw [if_neg (by omega)]
  | cons b bytes ih =>
    simp only [List.length_cons] at hi ⊢
    rw [Memory.writeBytes, ih (Memory.wfFrom_write b h (by omega) (by omega)) (by omega),
      Memory.read_writeFrom b h]
    rcases Nat.lt_trichotomy j i with hj | rfl | hj
    · rw [if_neg (by omega), if_neg (by omega), if_neg (by omega)]
    · rw [if_neg (by omega), if_pos rfl, if_pos (by omega)]; simp
    · by_cases hr : j < i + 1 + bytes.length
      · rw [if_pos (by omega), if_pos (by omega)]
        obtain ⟨n, hn⟩ : ∃ n, j - i = n + 1 := ⟨j - i - 1, by omega⟩
        rw [hn, show j - (i + 1) = n by omega]; simp
      · rw [if_neg (by omega), if_neg (by omega), if_neg (by omega)]

theorem Memory.wf_writeBytes (bytes : List Byte) {m : Memory} {i : Nat} (h : m.wf = true)
    (hi : i + bytes.length ≤ 25) : (m.writeBytes i bytes).wf = true := by
  induction bytes generalizing m i with
  | nil => exact h
  | cons b bytes ih =>
    simp only [List.length_cons] at hi
    exact ih (Memory.wfFrom_write b h (by omega) (by omega)) (by omega)

end Sys2Proof.Machine
end

