-- ==== Sys2Proof/Laws/Exec.lean ====
section
/-! SUPPORT. What each meaning answers, branch by branch, in terms of the shared operations; and what the shared
completions leave. -/

namespace Sys2Proof.Machine

/-! ## Completions -/

theorem State.accept_cleared (s : State) (op : BitVec 4) (a b : Word) (c : Bool) : (s.accept op a b c).cleared := by
  simp [State.cleared]

theorem State.accept_sameWorking (s : State) (op : BitVec 4) (a b : Word) (c : Bool) :
    s.sameWorking (s.accept op a b c) := by
  simp [State.sameWorking]

/-- `complete` with CODE = OK posts its result, given room for it in a buffer that reads all zero. -/
theorem State.post_posted (s : State) (r : Result) (hw : s.obuf.wf = true) (hz : ∀ i, s.obuf.read i = 0x00#8)
    (hl : r.bytes.length ≤ 25) : (s.post r).posted r := by
  refine ⟨rfl, rfl, rfl, rfl, rfl, rfl, rfl, rfl, ?_, fun i => ?_⟩
  · rw [State.post_olen, BitVec.toNat_ofNat]; exact Nat.mod_eq_of_lt (by omega)
  · rw [State.post_obuf, Memory.read_writeBytes r.bytes hw (by omega), hz]
    by_cases hi : i < r.bytes.length
    · simp [hi]
    · rw [if_neg (by omega), List.getD_eq_default _ _ (by omega)]

/-- `complete` with CODE ≠ OK leaves the absent result ACCEPT left. -/
theorem State.raise_failed (s : State) (k : Code) (h : s.cleared) : (s.raise k).failed k := by
  obtain ⟨-, -, h1, h2, h3, h4, h5, h6, h7⟩ := h
  exact ⟨rfl, rfl, rfl, h1, h2, h3, h4, h5, h6, h7⟩

theorem State.accept_post_posted (s : State) (op : BitVec 4) (a b : Word) (c : Bool) (r : Result)
    (hl : r.bytes.length ≤ 25) : ((s.accept op a b c).post r).posted r :=
  State.post_posted _ r rfl (fun _ => rfl) hl

theorem State.accept_raise_failed (s : State) (op : BitVec 4) (a b : Word) (c : Bool) (k : Code) :
    ((s.accept op a b c).raise k).failed k :=
  State.raise_failed _ k (s.accept_cleared op a b c)

/-- What the host reads out of OBUF after a completion is the string posted. -/
theorem State.posted.outputString {t : State} {r : Result} (h : t.posted r) : t.outputString = r.bytes := by
  obtain ⟨-, -, -, -, -, -, -, -, hl, hr⟩ := h
  apply List.ext_getElem
  · simp [State.outputString, hl]
  · intro i h1 h2
    simp [State.outputString, hr, h2]

/-! ## Powers of ten and the ROM -/

theorem pow10_of_le {d : Nat} (h : d ≤ 9) : ∃ edge, pow10 d = some edge ∧ edge.toNat = 10 ^ d := by
  interval_cases d <;> exact ⟨_, rfl, rfl⟩

theorem pow10_of_gt {d : Nat} (h : 9 < d) : pow10 d = none := List.getElem?_eq_none h

theorem extractEdge_of_lt {d n : Word} (hd : d.toNat ≤ 9) (hn : n.toNat < 10 ^ d.toNat) :
    ∃ edge, extractEdge d n = some edge ∧ edge.toNat = 10 ^ d.toNat := by
  obtain ⟨edge, h, he⟩ := pow10_of_le hd
  exact ⟨edge, by simp [extractEdge, h, he, hn], he⟩

theorem extractEdge_of_ge {d n : Word} (h : 9 < d.toNat ∨ 10 ^ d.toNat ≤ n.toNat) : extractEdge d n = none := by
  by_cases hd : d.toNat ≤ 9
  · obtain ⟨edge, hp, he⟩ := pow10_of_le hd
    simp [extractEdge, hp, he]; omega
  · simp [extractEdge, pow10_of_gt (Nat.lt_of_not_le hd)]

theorem romNumerators_get {k : Nat} (h1 : 1 ≤ k) (h2 : k ≤ 23) :
    romNumerators[k - 1]? = some (BitVec.ofNat 128 (5 ^ k)) := by
  interval_cases k <;> rfl

theorem romRead_of_mem {e : Word} (h1 : 1 ≤ e.toNat) (h2 : e.toNat ≤ 23) :
    romRead e = some { decimalNumerator := BitVec.ofNat 128 (5 ^ e.toNat), decimalDigits := e } := by
  simp [romRead, h1, h2, romNumerators_get]

theorem romRead_of_not_mem {e : Word} (h : e.toNat = 0 ∨ 24 ≤ e.toNat) : romRead e = none := by
  have : ¬(1 ≤ e.toNat ∧ e.toNat ≤ 23) := by omega
  simp [romRead, this]

/-! ## The meanings -/

theorem execSetbit_of_lt (word n : Word) (value : Bool) (s : State) (h : n.toNat < 32) :
    execSetbit word n value s =
      .next ((s.accept Opcode.setbit word n value).post { rx := setBit word n.toNat value }) := by
  simp [execSetbit, bitIndexInRange, h]

theorem execSetbit_of_ge (word n : Word) (value : Bool) (s : State) (h : 32 ≤ n.toNat) :
    execSetbit word n value s = .next ((s.accept Opcode.setbit word n value).raise .badOperand) := by
  simp [execSetbit, bitIndexInRange, Nat.not_lt.mpr h]

theorem execGetbit_of_lt (word n : Word) (c : Bool) (s : State) (h : n.toNat < 32) :
    execGetbit word n c s =
      .next ((s.accept Opcode.getbit word n c).post { rx := boolWord (getBit word n.toNat) }) := by
  simp [execGetbit, bitIndexInRange, h]

theorem execGetbit_of_ge (word n : Word) (c : Bool) (s : State) (h : 32 ≤ n.toNat) :
    execGetbit word n c s = .next ((s.accept Opcode.getbit word n c).raise .badOperand) := by
  simp [execGetbit, bitIndexInRange, Nat.not_lt.mpr h]

theorem execRevlow_of_le (word count : Word) (c : Bool) (s : State) (h : count.toNat ≤ 32) :
    execRevlow word count c s =
      .next ((s.accept Opcode.revlow word count c).post { rx := reverseLowBits word count.toNat }) := by
  simp [execRevlow, runLengthInRange, h]

theorem execRevlow_of_gt (word count : Word) (c : Bool) (s : State) (h : 32 < count.toNat) :
    execRevlow word count c s = .next ((s.accept Opcode.revlow word count c).raise .badOperand) := by
  simp [execRevlow, runLengthInRange, Nat.not_le.mpr h]

theorem execLookup_of_mem (e b : Word) (c : Bool) (s : State) (h1 : 1 ≤ e.toNat) (h2 : e.toNat ≤ 23) :
    execLookup e b c s =
      .next ((s.accept Opcode.lookup e b c).post { rw := BitVec.ofNat 128 (5 ^ e.toNat), rx := e }) := by
  simp [execLookup, romRead_of_mem h1 h2]

theorem execLookup_of_not_mem (e b : Word) (c : Bool) (s : State) (h : e.toNat = 0 ∨ 24 ≤ e.toNat) :
    execLookup e b c s = .next ((s.accept Opcode.lookup e b c).raise .unsupportedExponent) := by
  simp [execLookup, romRead_of_not_mem h]

theorem execExtract_of_lt (d n : Word) (c : Bool) (s : State) (hd : d.toNat ≤ 9) (hn : n.toNat < 10 ^ d.toNat) :
    ∃ edge : Word, edge.toNat = 10 ^ d.toNat ∧
      execExtract d n c s = .next ((s.accept Opcode.extract d n c).startIter (d.setWidth 4) n edge) := by
  obtain ⟨edge, h, he⟩ := extractEdge_of_lt hd hn
  exact ⟨edge, he, by simp [execExtract, h]⟩

theorem execExtract_of_ge (d n : Word) (c : Bool) (s : State) (h : 9 < d.toNat ∨ 10 ^ d.toNat ≤ n.toNat) :
    execExtract d n c s = .next ((s.accept Opcode.extract d n c).raise .badOperand) := by
  simp [execExtract, extractEdge_of_ge h]

theorem execPack_of_lt (e g : Word) (sign : Bool) (s : State) (he : e.toNat ≤ 255) (hg : g.toNat < 2 ^ 23) :
    execPack e g sign s = .next ((s.accept Opcode.pack e g sign).post
      { rx := packFields sign (e.setWidth 8) (g.setWidth 23) }) := by
  have h : (exponentInRange e && significandInRange g) = true := by
    simp only [exponentInRange, significandInRange, Bool.and_eq_true, decide_eq_true_eq]; exact ⟨he, hg⟩
  simp only [execPack, h, if_true, State.complete_ok]

theorem execPack_of_ge (e g : Word) (sign : Bool) (s : State) (h : 255 < e.toNat ∨ 2 ^ 23 ≤ g.toNat) :
    execPack e g sign s = .next ((s.accept Opcode.pack e g sign).raise .badOperand) := by
  have h' : (exponentInRange e && significandInRange g) = false := by
    simp only [exponentInRange, significandInRange, Bool.and_eq_false_iff, decide_eq_false_iff_not]; omega
  simp [execPack, h']

end Sys2Proof.Machine
end

