-- ==== Sys2Proof/Laws/Step.lean ====
section
/-! SUPPORT. What one clock edge does, by phase and by what the host presents. -/

namespace Sys2Proof.Machine

theorem step_of_rst {s : State} (h : s.presented.rst = true) : step s = .next s.advanceInputs.resetRegisters := by
  simp [step, clockEdge, h]

theorem step_idle_command {s : State} {w : CommandWord} (hr : s.presented.rst = false) (hp : s.ph = .idle)
    (hc : s.presented.cmd = some w) : step s = exec (decodeCommand w) s.advanceInputs := by
  simp [step, clockEdge, hr, hp, hc]

theorem step_idle_quiet {s : State} (hr : s.presented.rst = false) (hp : s.ph = .idle)
    (hc : s.presented.cmd = none) : step s = .next s.advanceInputs := by
  simp [step, clockEdge, hr, hp, hc]

theorem step_scan_symbol {s : State} {w : SymbolWord} (hr : s.presented.rst = false) (hp : s.ph = .scan)
    (hc : s.presented.sym = some w) : step s = stepSymbol (decodeSymbol w) s.advanceInputs := by
  simp [step, clockEdge, hr, hp, hc]

theorem step_scan_quiet {s : State} (hr : s.presented.rst = false) (hp : s.ph = .scan)
    (hc : s.presented.sym = none) : step s = .next s.advanceInputs := by
  simp [step, clockEdge, hr, hp, hc]

theorem step_iter {s : State} (hr : s.presented.rst = false) (hp : s.ph = .iter) :
    step s = stepIter s.advanceInputs := by
  simp [step, clockEdge, hr, hp]

/-- Everything one edge can be: a reset, an ACCEPT, a SYMBOL, an ITER, or nothing. -/
theorem step_cases (s : State) :
    (s.presented.rst = true ∧ step s = .next s.advanceInputs.resetRegisters) ∨
    (s.presented.rst = false ∧
      ((s.ph = .idle ∧ ∃ w, s.presented.cmd = some w ∧ step s = exec (decodeCommand w) s.advanceInputs) ∨
       (s.ph = .scan ∧ ∃ w, s.presented.sym = some w ∧ step s = stepSymbol (decodeSymbol w) s.advanceInputs) ∨
       (s.ph = .iter ∧ step s = stepIter s.advanceInputs) ∨
       (((s.ph = .idle ∧ s.presented.cmd = none) ∨ (s.ph = .scan ∧ s.presented.sym = none)) ∧
         step s = .next s.advanceInputs))) := by
  cases hr : s.presented.rst with
  | true => exact .inl ⟨rfl, step_of_rst hr⟩
  | false =>
    refine .inr ⟨rfl, ?_⟩
    cases hp : s.ph with
    | idle =>
      cases hc : s.presented.cmd with
      | some w => exact .inl ⟨rfl, w, rfl, step_idle_command hr hp hc⟩
      | none => exact .inr (.inr (.inr ⟨.inl ⟨rfl, rfl⟩, step_idle_quiet hr hp hc⟩))
    | scan =>
      cases hc : s.presented.sym with
      | some w => exact .inr (.inl ⟨rfl, w, rfl, step_scan_symbol hr hp hc⟩)
      | none => exact .inr (.inr (.inr ⟨.inr ⟨rfl, rfl⟩, step_scan_quiet hr hp hc⟩))
    | iter => exact .inr (.inr (.inl ⟨rfl, step_iter hr hp⟩))

/-! ## Runs -/

theorem steps_succ (n : Nat) {s t : State} (h : step s = .next t) : steps (n + 1) s = steps n t := by
  simp [steps, h]

/-- A run continues where it stopped. -/
theorem steps_add (m n : Nat) {s t : State} (h : steps m s = .next t) : steps (m + n) s = steps n t := by
  induction m generalizing s with
  | zero => simp only [steps, Host.Outcome.next.injEq] at h; simp [h]
  | succ m ih =>
    rw [show m + 1 + n = (m + n) + 1 by omega]
    simp only [steps] at h ⊢
    cases hs : step s with
    | next u => rw [hs] at h; exact ih h
    | fault r => rw [hs] at h; cases h
    | refused r => rw [hs] at h; cases h

/-- `steps` is the host's own run of the core. -/
theorem core_run_eq_steps (n : Nat) (s : State) : Host.Core.run Sys2Proof.core n s = steps n s := by
  induction n generalizing s with
  | zero => rfl
  | succ n ih =>
    cases hs : step s with
    | next t =>
      have hc : Host.Core.step Sys2Proof.core s = .next t := hs
      simp only [Host.Core.run, steps, hc, hs]
      exact ih t
    | fault r =>
      have hc : Host.Core.step Sys2Proof.core s = .fault r := hs
      simp only [Host.Core.run, steps, hc, hs]
      rfl
    | refused r =>
      have hc : Host.Core.step Sys2Proof.core s = .refused r := hs
      simp only [Host.Core.run, steps, hc, hs]
      rfl

end Sys2Proof.Machine
end

