-- ==== Sys2Proof/Laws/Scan.lean ====
section
/-! SUPPORT. The scanner: what one character does, what a whole string does, and a run over its symbols. -/

namespace Sys2Proof.Machine

/-! ## Character classes (rule R80) -/

theorem classOf_digit {b : Byte} (h : 0x30 ≤ b.toNat ∧ b.toNat ≤ 0x39) : classOf b = .digit (b.toNat - 0x30) := by
  simp only [classOf, h, and_self, if_true]

theorem classOf_dot {b : Byte} (h : b.toNat = 0x2E) : classOf b = .dot := by
  simp [classOf, h]

theorem classOf_other {b : Byte} (h : ¬(0x30 ≤ b.toNat ∧ b.toNat ≤ 0x39)) (hd : b.toNat ≠ 0x2E) :
    classOf b = .other := by
  simp only [classOf, h, hd, if_false]

theorem byte_dot_iff (b : Byte) : b = 0x2E#8 ↔ b.toNat = 0x2E := by
  rw [← BitVec.toNat_inj]; simp

/-! ## One character -/

/-- `parser_update` writes only SEEN, BAD, OVF, DCNT and NUM. -/
theorem parserUpdate_frame (b : Byte) (s : State) :
    parserUpdate b s =
      { s with seen := (parserUpdate b s).seen, bad := (parserUpdate b s).bad, ovf := (parserUpdate b s).ovf,
               dcnt := (parserUpdate b s).dcnt, num := (parserUpdate b s).num } := by
  unfold parserUpdate
  cases classOf b with
  | other => rfl
  | dot => by_cases h : s.seen = true <;> simp only [h] <;> rfl
  | digit v =>
    by_cases h : s.seen = true <;> by_cases h' : s.dcnt = 9#4 <;> simp only [h, h', if_true, if_false] <;> rfl

theorem parserUpdate_other {b : Byte} (h : ¬(0x30 ≤ b.toNat ∧ b.toNat ≤ 0x39)) (hd : b.toNat ≠ 0x2E) (s : State) :
    parserUpdate b s = { s with bad := true } := by
  simp [parserUpdate, classOf_other h hd]

theorem parserUpdate_dot (s : State) :
    parserUpdate 0x2E#8 s = if s.seen then { s with bad := true } else { s with seen := true } := rfl

theorem parserUpdate_digit_before {b : Byte} (h : 0x30 ≤ b.toNat ∧ b.toNat ≤ 0x39) {s : State} (hs : s.seen = false) :
    parserUpdate b s = s := by
  simp [parserUpdate, classOf_digit h, hs]

theorem parserUpdate_digit_full {b : Byte} (h : 0x30 ≤ b.toNat ∧ b.toNat ≤ 0x39) {s : State} (hs : s.seen = true)
    (hd : s.dcnt = 9#4) : parserUpdate b s = { s with ovf := true } := by
  simp [parserUpdate, classOf_digit h, hs, hd]

theorem parserUpdate_digit_after {b : Byte} (h : 0x30 ≤ b.toNat ∧ b.toNat ≤ 0x39) {s : State} (hs : s.seen = true)
    (hd : s.dcnt ≠ 9#4) :
    parserUpdate b s =
      { s with num := BitVec.ofNat 32 (s.num.toNat * 10 + (b.toNat - 0x30)), dcnt := s.dcnt + 1 } := by
  simp [parserUpdate, classOf_digit h, hs, hd]

/-- Rule R121's arithmetic: below nine digits the numerator takes one more digit without overflow. -/
theorem numerator_digit {num v : Nat} {d : Nat} (h : num < 10 ^ d) (hd : d < 9) (hv : v ≤ 9) :
    num * 10 + v < 10 ^ (d + 1) ∧ (BitVec.ofNat 32 (num * 10 + v)).toNat = num * 10 + v := by
  have h9 : 10 ^ (d + 1) ≤ 10 ^ 9 := Nat.pow_le_pow_right (by omega) (by omega)
  have h1 : num * 10 + v < 10 ^ (d + 1) := by rw [pow_succ]; omega
  refine ⟨h1, ?_⟩
  rw [BitVec.toNat_ofNat, Nat.mod_eq_of_lt]
  omega

theorem dcnt_succ {d : BitVec 4} (h : d.toNat < 9) : (d + 1).toNat = d.toNat + 1 := by
  rw [BitVec.toNat_add]
  exact Nat.mod_eq_of_lt (by simp; omega)

/-! ## A whole string -/

/-- The parser registers after the characters of `str`. -/
def scanString (str : List Byte) (s : State) : State := str.foldl (fun s b => parserUpdate b s) s

@[simp] theorem scanString_nil (s : State) : scanString [] s = s := rfl

@[simp] theorem scanString_cons (b : Byte) (str : List Byte) (s : State) :
    scanString (b :: str) s = scanString str (parserUpdate b s) := rfl

theorem scanString_append (str str' : List Byte) (s : State) :
    scanString (str ++ str') s = scanString str' (scanString str s) := by
  simp [scanString, List.foldl_append]

/-- A scan writes only SEEN, BAD, OVF, DCNT and NUM. -/
theorem scanString_frame (str : List Byte) (s : State) :
    ∃ seen bad ovf dcnt num,
      scanString str s = { s with seen := seen, bad := bad, ovf := ovf, dcnt := dcnt, num := num } := by
  induction str generalizing s with
  | nil => exact ⟨s.seen, s.bad, s.ovf, s.dcnt, s.num, rfl⟩
  | cons b str ih =>
    obtain ⟨p1, p2, p3, p4, p5, hp⟩ := ih (parserUpdate b s)
    refine ⟨p1, p2, p3, p4, p5, ?_⟩
    rw [scanString_cons, hp, parserUpdate_frame]

theorem scanString_seen (str : List Byte) (s : State) :
    (scanString str s).seen = (s.seen || decide (0x2E#8 ∈ str)) := by
  induction str generalizing s with
  | nil => simp
  | cons b str ih =>
    rw [scanString_cons, ih]
    by_cases hd : b = 0x2E#8
    · subst hd
      rw [parserUpdate_dot]
      cases s.seen <;> simp
    · have hn : (parserUpdate b s).seen = s.seen := by
        have hd' : b.toNat ≠ 0x2E := fun h => hd ((byte_dot_iff b).mpr h)
        by_cases h : 0x30 ≤ b.toNat ∧ b.toNat ≤ 0x39
        · unfold parserUpdate
          rw [classOf_digit h]
          by_cases h1 : s.seen = true <;> by_cases h2 : s.dcnt = 9#4 <;> simp [h1, h2]
        · rw [parserUpdate_other h hd']
      rw [hn]
      simp [Ne.symm hd]

/-- Rule R121: BAD stays 0 exactly over a string with no OTHER byte and no second point. -/
theorem scanString_bad (str : List Byte) (s : State) :
    (scanString str s).bad = false ↔
      s.bad = false ∧ (∀ b ∈ str, (0x30 ≤ b.toNat ∧ b.toNat ≤ 0x39) ∨ b = 0x2E#8) ∧
        s.seen.toNat + str.count 0x2E#8 ≤ 1 := by
  induction str generalizing s with
  | nil => cases s.seen <;> simp
  | cons b str ih =>
    rw [scanString_cons, ih]
    by_cases hd : b = 0x2E#8
    · subst hd
      rw [parserUpdate_dot]
      cases hs : s.seen
      · simp
      · simp
    · have hd' : b.toNat ≠ 0x2E := fun h => hd ((byte_dot_iff b).mpr h)
      by_cases h : 0x30 ≤ b.toNat ∧ b.toNat ≤ 0x39
      · have hk : (parserUpdate b s).bad = s.bad ∧ (parserUpdate b s).seen = s.seen := by
          unfold parserUpdate
          rw [classOf_digit h]
          by_cases h1 : s.seen = true <;> by_cases h2 : s.dcnt = 9#4 <;> simp [h1, h2]
        rw [hk.1, hk.2, List.count_cons_of_ne hd]
        simp [h]
      · rw [parserUpdate_other h hd']
        simp [h, hd]

/-- Digits before the point change nothing. -/
theorem scanString_before (whole : List Byte) (h : AllDigits whole) {s : State} (hs : s.seen = false) :
    scanString whole s = s := by
  induction whole with
  | nil => rfl
  | cons b whole ih =>
    rw [scanString_cons, parserUpdate_digit_before (h b (by simp)) hs]
    exact ih fun x hx => h x (by simp [hx])

theorem digitsValue_append (f : List Byte) (b : Byte) :
    digitsValue (f ++ [b]) = digitsValue f * 10 + (b.toNat - 0x30) := by
  simp [digitsValue, List.foldl_append]

/-- `numerator < 10^digit_count` (rule R125). -/
theorem digitsValue_lt (f : List Byte) (h : AllDigits f) : digitsValue f < 10 ^ f.length := by
  induction f using List.reverseRecOn with
  | nil => simp [digitsValue]
  | append_singleton f b ih =>
    have hb := h b (by simp)
    have hf := ih fun x hx => h x (by simp [hx])
    rw [digitsValue_append, List.length_append, List.length_singleton, pow_succ]
    omega

/-- Up to nine digits after the point are counted and read as a number (rules R121, R125). -/
theorem scanString_after (frac : List Byte) (h : AllDigits frac) (hl : frac.length ≤ 9) {s : State}
    (hs : s.seen = true) (hd : s.dcnt = 0#4) (hn : s.num = 0#32) :
    scanString frac s =
      { s with dcnt := BitVec.ofNat 4 frac.length, num := BitVec.ofNat 32 (digitsValue frac) } := by
  induction frac using List.reverseRecOn with
  | nil => cases s; simp_all [digitsValue]
  | append_singleton f b ih =>
    have hb := h b (by simp)
    have hf : AllDigits f := fun x hx => h x (by simp [hx])
    simp only [List.length_append, List.length_singleton] at hl
    have hv := digitsValue_lt f hf
    have h9 : 10 ^ f.length < 10 ^ 9 := Nat.pow_lt_pow_right (by omega) (by omega)
    rw [scanString_append, ih hf (by omega), scanString_cons, scanString_nil, digitsValue_append]
    refine (parserUpdate_digit_after hb ?_ ?_).trans ?_
    · exact hs
    rotate_left
    · have h1 : (BitVec.ofNat 32 (digitsValue f)).toNat = digitsValue f := by
        rw [BitVec.toNat_ofNat]; exact Nat.mod_eq_of_lt (by omega)
      simp only [List.length_append, List.length_singleton, h1, BitVec.ofNat_add]
      rfl
    · intro hc
      have := congrArg BitVec.toNat hc
      rw [BitVec.toNat_ofNat, Nat.mod_eq_of_lt (by omega)] at this
      simp at this; omega

/-- A tenth digit after the point raises OVF, which stays (rule R121). -/
theorem scanString_ovf (frac : List Byte) (h : AllDigits frac) {s : State} (hs : s.seen = true)
    (hd : s.dcnt.toNat ≤ 9) :
    (scanString frac s).ovf = (s.ovf || decide (9 < s.dcnt.toNat + frac.length)) := by
  induction frac generalizing s with
  | nil => simp [hd]
  | cons b f ih =>
    have hb := h b (by simp)
    have hf : AllDigits f := fun x hx => h x (by simp [hx])
    rw [scanString_cons]
    by_cases h9 : s.dcnt = 9#4
    · rw [parserUpdate_digit_full hb hs h9]
      exact (ih (s := { s with ovf := true }) hf hs hd).trans (by simp [h9])
    · have hlt : s.dcnt.toNat < 9 := by
        have : s.dcnt.toNat ≠ 9 := fun hc => h9 (BitVec.eq_of_toNat_eq (by simpa using hc))
        omega
      have hsucc := dcnt_succ hlt
      rw [parserUpdate_digit_after hb hs h9]
      refine (ih (s := { s with num := _, dcnt := s.dcnt + 1 }) hf hs (by simp only [hsucc]; omega)).trans ?_
      simp only [hsucc, List.length_cons]
      rw [Nat.add_assoc, Nat.add_comm 1]

/-! ## A run over the symbols of a string -/

/-- The edges that deliver the characters of `str` take the core through the scan of `str`. -/
theorem steps_characters (str : List Byte) (rest : List HostInput) (s : State) (hp : s.ph = .scan) :
    steps str.length (s.facing (str.map (fun b => HostInput.symbol (.ch b)) ++ rest)) =
      .next ((scanString str s).facing rest) := by
  induction str generalizing s with
  | nil => rfl
  | cons b str ih =>
    have hstep : step (s.facing ((b :: str).map (fun b => HostInput.symbol (.ch b)) ++ rest)) =
        .next ((parserUpdate b s).facing (str.map (fun b => HostInput.symbol (.ch b)) ++ rest)) := by
      refine (step_scan_symbol (w := encodeSymbol (.ch b)) (by rfl) (by exact hp) (by rfl)).trans ?_
      rw [decodeSymbol_encodeSymbol]
      show Host.Outcome.next (parserUpdate b (s.facing _)) = _
      congr 1
      unfold parserUpdate State.facing
      cases classOf b with
      | other => rfl
      | dot => cases s.seen <;> rfl
      | digit v => by_cases h1 : s.seen = true <;> by_cases h2 : s.dcnt = 9#4 <;> simp [h1, h2]
    rw [List.length_cons, steps_succ _ hstep, ih]
    · rfl
    · have := parserUpdate_frame b s
      rw [this]; exact hp

/-- ACCEPT of a string command and all the characters of its string. -/
theorem steps_stringCommand (i : Instr) (str : List Byte) (s t : State) (hp : s.ph = .idle)
    (hd : decodeCommand (encodeCommand i) = i)
    (hi : exec i (s.facing ((Symbol.delivery str).map HostInput.symbol)) =
      .next (t.facing ((Symbol.delivery str).map HostInput.symbol)))
    (ht : t.ph = .scan) :
    steps (str.length + 1) (s.facing (stringEdges i str)) =
      .next ((scanString str t).facing [HostInput.symbol .endOfString]) := by
  have hstep : step (s.facing (stringEdges i str)) =
      .next (t.facing ((Symbol.delivery str).map HostInput.symbol)) := by
    refine (step_idle_command (w := encodeCommand i) (by rfl) (by exact hp) (by rfl)).trans ?_
    rw [hd]
    exact hi
  rw [steps_succ _ hstep]
  have hm : (Symbol.delivery str).map HostInput.symbol =
      str.map (fun b => HostInput.symbol (.ch b)) ++ [HostInput.symbol .endOfString] := by
    simp [Symbol.delivery, Function.comp_def]
  rw [hm]
  exact steps_characters str _ t ht

/-- The END edge. -/
theorem step_endSymbol (s : State) (rest : List HostInput) (hp : s.ph = .scan) :
    step (s.facing (HostInput.symbol .endOfString :: rest)) = endOfString (s.facing rest) := by
  refine (step_scan_symbol (w := encodeSymbol .endOfString) (by rfl) (by exact hp) (by rfl)).trans ?_
  rw [decodeSymbol_encodeSymbol]
  rfl

end Sys2Proof.Machine
end

