-- ==== Sys2Proof/Laws/Numeral.lean ====
section
/-! SUPPORT. The decimal renderer: the numeral is the library's, its digits read back as the number, and how long the
rendered fraction is. -/

namespace Sys2Proof.Machine

theorem decimalDigitsLow_zero (fuel : Nat) : decimalDigitsLow (fuel + 1) 0 = [0] := by
  simp [decimalDigitsLow]

/-- With fuel for every digit, the digits are the library's. -/
theorem decimalDigitsLow_eq_digits (fuel : Nat) {p : Nat} (hp : 0 < p) (hf : p < 10 ^ fuel) :
    decimalDigitsLow fuel p = Nat.digits 10 p := by
  induction fuel generalizing p with
  | zero => omega
  | succ fuel ih =>
    rw [decimalDigitsLow, Nat.digits_def' (by omega) hp]
    by_cases h : p < 10
    · rw [if_pos h, Nat.div_eq_of_lt h, Nat.digits_zero]
    · rw [if_neg h, ih (Nat.div_pos (by omega) (by omega)) (by rw [pow_succ] at hf; omega)]

theorem decimalNumeral_eq (p : Nat) : decimalNumeral p = asciiNumeral p := by
  unfold decimalNumeral asciiNumeral
  by_cases h : p = 0
  · subst h; rfl
  · have hf : p < 10 ^ (p.log2 + 1) :=
      lt_of_lt_of_le Nat.lt_log2_self (Nat.pow_le_pow_left (by omega) _)
    rw [if_neg h, decimalDigitsLow_eq_digits _ (by omega) hf]

theorem asciiNumeral_zero : asciiNumeral 0 = [0x30#8] := rfl

theorem asciiNumeral_of_pos {p : Nat} (h : 0 < p) :
    asciiNumeral p = (Nat.digits 10 p).reverse.map fun d => BitVec.ofNat 8 (0x30 + d) := by
  simp [asciiNumeral, Nat.pos_iff_ne_zero.mp h]

theorem digitByte_toNat {d : Nat} (h : d < 10) : (BitVec.ofNat 8 (0x30 + d)).toNat = 0x30 + d := by
  rw [BitVec.toNat_ofNat]; exact Nat.mod_eq_of_lt (by omega)

theorem asciiNumeral_allDigits (p : Nat) : AllDigits (asciiNumeral p) := by
  intro b hb
  rcases Nat.eq_zero_or_pos p with rfl | hp
  · rw [asciiNumeral_zero, List.mem_singleton] at hb
    subst hb; simp
  · rw [asciiNumeral_of_pos hp] at hb
    obtain ⟨d, hd, rfl⟩ := List.mem_map.mp hb
    have hlt : d < 10 := Nat.digits_lt_base (by omega) (List.mem_reverse.mp hd)
    rw [digitByte_toNat hlt]; omega

theorem asciiNumeral_length_pos (p : Nat) : 1 ≤ (asciiNumeral p).length := by
  rcases Nat.eq_zero_or_pos p with rfl | hp
  · simp [asciiNumeral_zero]
  · rw [asciiNumeral_of_pos hp, List.length_map, List.length_reverse]
    exact List.length_pos_iff.mpr (Nat.digits_ne_nil_iff_ne_zero.mpr (by omega))

/-- A number below `10^k` has at most `k` digits, `k ≥ 1`. -/
theorem asciiNumeral_length_le {p k : Nat} (hk : 1 ≤ k) (h : p < 10 ^ k) : (asciiNumeral p).length ≤ k := by
  rcases Nat.eq_zero_or_pos p with rfl | hp
  · simpa [asciiNumeral_zero] using hk
  · rw [asciiNumeral_of_pos hp, List.length_map, List.length_reverse]
    exact (Nat.digits_length_le_iff (by omega) _).mpr h

theorem foldl_digits (ds : List Nat) (h : ∀ d ∈ ds, d < 10) (v : Nat) :
    (ds.map fun d => (BitVec.ofNat 8 (0x30 + d) : Byte)).foldl (fun v b => v * 10 + (b.toNat - 0x30)) v =
      ds.foldl (fun v d => v * 10 + d) v := by
  induction ds generalizing v with
  | nil => rfl
  | cons d ds ih =>
    simp only [List.map_cons, List.foldl_cons]
    rw [ih (fun x hx => h x (by simp [hx])), digitByte_toNat (h d (by simp))]
    congr 2; omega

theorem foldl_eq_ofDigits (ds : List Nat) : ds.reverse.foldl (fun v d => v * 10 + d) 0 = Nat.ofDigits 10 ds := by
  induction ds with
  | nil => rfl
  | cons d ds ih =>
    rw [List.reverse_cons, List.foldl_append, ih, Nat.ofDigits_cons]
    simp only [List.foldl_cons, List.foldl_nil]
    omega

/-- A numeral reads back as its number. -/
theorem digitsValue_asciiNumeral (p : Nat) : digitsValue (asciiNumeral p) = p := by
  rcases Nat.eq_zero_or_pos p with rfl | hp
  · rfl
  · rw [asciiNumeral_of_pos hp, digitsValue, foldl_digits, foldl_eq_ofDigits, Nat.ofDigits_digits]
    intro d hd
    exact Nat.digits_lt_base (by omega) (List.mem_reverse.mp hd)

/-- Leading zeros do not change the number. -/
theorem digitsValue_replicate_append (z : Nat) (f : List Byte) :
    digitsValue (List.replicate z 0x30#8 ++ f) = digitsValue f := by
  induction z with
  | zero => rfl
  | succ z ih =>
    rw [List.replicate_succ, List.cons_append]
    exact ih

/-- Two digit strings of one length with one value are one string. -/
theorem allDigits_inj {f g : List Byte} (hf : AllDigits f) (hg : AllDigits g) (hl : f.length = g.length)
    (hv : digitsValue f = digitsValue g) : f = g := by
  induction f using List.reverseRecOn generalizing g with
  | nil => exact (List.length_eq_zero_iff.mp hl.symm).symm
  | append_singleton f b ih =>
    rcases List.eq_nil_or_concat g with rfl | ⟨g, c, rfl⟩
    · simp at hl
    · simp only [List.concat_eq_append] at *
      have hb := hf b (by simp)
      have hc := hg c (by simp)
      rw [digitsValue_append, digitsValue_append] at hv
      have hbc : b = c := BitVec.eq_of_toNat_eq (by omega)
      have hf' : AllDigits f := fun x hx => hf x (by simp [hx])
      have hg' : AllDigits g := fun x hx => hg x (by simp [hx])
      rw [ih hf' hg' (by simpa using hl) (by omega), hbc]

/-! ## The rendered fraction (rules R195, R198, R199) -/

theorem fractionString_length_of_lt {w p : Nat} (hw : 1 ≤ w) (h : p < 10 ^ w) :
    (fractionString w p).length = 2 + w := by
  have := asciiNumeral_length_le hw h
  simp only [fractionString, List.length_cons, List.length_append, List.length_replicate]
  omega

theorem fractionString_length_ge (w p : Nat) : 3 ≤ (fractionString w p).length := by
  have := asciiNumeral_length_pos p
  simp only [fractionString, List.length_cons, List.length_append, List.length_replicate]
  omega

theorem fractionString_length_le {w p k : Nat} (hk : 1 ≤ k) (hw : w ≤ k) (h : p < 10 ^ k) :
    (fractionString w p).length ≤ 2 + k := by
  have := asciiNumeral_length_le hk h
  simp only [fractionString, List.length_cons, List.length_append, List.length_replicate]
  omega

/-- Rule R196: the product is below 10^23. -/
theorem product_lt {e g : Nat} (he : e ≤ 23) (hg : g < 2 ^ 23) : 5 ^ e * g < 10 ^ 23 := by
  have h5 : 5 ^ e ≤ 5 ^ 23 := Nat.pow_le_pow_right (by omega) he
  calc 5 ^ e * g ≤ 5 ^ 23 * g := Nat.mul_le_mul_right _ h5
    _ < 5 ^ 23 * 2 ^ 23 := Nat.mul_lt_mul_of_pos_left hg (by positivity)
    _ = 10 ^ 23 := by norm_num

theorem product_lt_of_lt {e g : Nat} (hg : g < 2 ^ e) : 5 ^ e * g < 10 ^ e := by
  calc 5 ^ e * g < 5 ^ e * 2 ^ e := Nat.mul_lt_mul_of_pos_left hg (by positivity)
    _ = 10 ^ e := by rw [← Nat.mul_pow]

theorem decodeString_of_mem {word : Word} (h1 : 1 ≤ word.toNat / 2 ^ 23 % 2 ^ 8)
    (h2 : word.toNat / 2 ^ 23 % 2 ^ 8 ≤ 23) :
    decodeString word = some (fractionString (word.toNat / 2 ^ 23 % 2 ^ 8)
      (5 ^ (word.toNat / 2 ^ 23 % 2 ^ 8) * (word.toNat % 2 ^ 23))) := by
  have he := exponentOf_toNat word
  rw [← he] at h1 h2 ⊢
  have h5 : (BitVec.ofNat 128 (5 ^ (exponentOf word).toNat)).toNat = 5 ^ (exponentOf word).toNat := by
    rw [BitVec.toNat_ofNat]
    refine Nat.mod_eq_of_lt (lt_of_le_of_lt (Nat.pow_le_pow_right (by omega) h2) (by norm_num))
  simp only [decodeString, romRead_of_mem h1 h2, h5, significandOf_toNat, padDigits, decimalNumeral_eq, fractionString]

theorem decodeString_of_not_mem {word : Word}
    (h : word.toNat / 2 ^ 23 % 2 ^ 8 = 0 ∨ 24 ≤ word.toNat / 2 ^ 23 % 2 ^ 8) : decodeString word = none := by
  rw [← exponentOf_toNat] at h
  simp only [decodeString, romRead_of_not_mem h]

/-- Rule R199, whatever the word: DECODE's string fits the buffer. -/
theorem decodeString_length {word : Word} {bytes : List Byte} (h : decodeString word = some bytes) :
    3 ≤ bytes.length ∧ bytes.length ≤ 25 := by
  by_cases hm : 1 ≤ word.toNat / 2 ^ 23 % 2 ^ 8 ∧ word.toNat / 2 ^ 23 % 2 ^ 8 ≤ 23
  · rw [decodeString_of_mem hm.1 hm.2, Option.some.injEq] at h
    subst h
    have hp := product_lt hm.2 (Nat.mod_lt word.toNat (show 0 < 2 ^ 23 by norm_num))
    exact ⟨fractionString_length_ge _ _, fractionString_length_le (by omega) hm.2 hp⟩
  · rw [decodeString_of_not_mem (by omega)] at h
    cases h

theorem execDecode_of_some {word b : Word} {c : Bool} {s : State} {bytes : List Byte}
    (h : decodeString word = some bytes) :
    execDecode word b c s = .next ((s.accept Opcode.decode word b c).post { bytes := bytes }) := by
  simp [execDecode, h]

theorem execDecode_of_none {word b : Word} {c : Bool} {s : State} (h : decodeString word = none) :
    execDecode word b c s = .next ((s.accept Opcode.decode word b c).raise .unsupportedExponent) := by
  simp [execDecode, h]

end Sys2Proof.Machine
end

