-- ==== Sys2Proof/Laws/Dispatch.lean ====
section
/-! SUPPORT. What accepting any command can do. -/

namespace Sys2Proof.Machine

/-- Everything ACCEPT can do, whatever the command: post a result, raise a code, start a scan, or start the extractor. -/
theorem exec_cases (i : Instr) (s : State) :
    let a := s.accept i.opcode i.operands.1 i.operands.2.1 i.operands.2.2
    (∃ r : Result, r.bytes.length ≤ 25 ∧ r.trunc = false ∧ exec i s = .next (a.post r)) ∨
    (∃ k, k ≠ .ok ∧ exec i s = .next (a.raise k)) ∨
    (exec i s = .next a.startScan ∧
      (i.opcode = Opcode.validate ∨ i.opcode = Opcode.parse ∨ i.opcode = Opcode.encode)) ∨
    (∃ d n c edge, i = .extract d n c ∧ d.toNat ≤ 9 ∧ n.toNat < 10 ^ d.toNat ∧ edge.toNat = 10 ^ d.toNat ∧
      exec i s = .next (a.startIter (d.setWidth 4) n edge)) := by
  cases i with
  | setbit w n v =>
    rcases Nat.lt_or_ge n.toNat 32 with h | h
    · exact .inl ⟨_, by simp, rfl, execSetbit_of_lt w n v s h⟩
    · exact .inr (.inl ⟨_, by simp, execSetbit_of_ge w n v s h⟩)
  | getbit w n v =>
    rcases Nat.lt_or_ge n.toNat 32 with h | h
    · exact .inl ⟨_, by simp, rfl, execGetbit_of_lt w n v s h⟩
    · exact .inr (.inl ⟨_, by simp, execGetbit_of_ge w n v s h⟩)
  | revlow w n v =>
    rcases Nat.lt_or_ge 32 n.toNat with h | h
    · exact .inr (.inl ⟨_, by simp, execRevlow_of_gt w n v s h⟩)
    · exact .inl ⟨_, by simp, rfl, execRevlow_of_le w n v s h⟩
  | validate a b c => exact .inr (.inr (.inl ⟨rfl, by simp [Instr.opcode]⟩))
  | parse a b c => exact .inr (.inr (.inl ⟨rfl, by simp [Instr.opcode]⟩))
  | encode a b c => exact .inr (.inr (.inl ⟨rfl, by simp [Instr.opcode]⟩))
  | lookup e b c =>
    by_cases h : 1 ≤ e.toNat ∧ e.toNat ≤ 23
    · exact .inl ⟨_, by simp, rfl, execLookup_of_mem e b c s h.1 h.2⟩
    · exact .inr (.inl ⟨_, by simp, execLookup_of_not_mem e b c s (by omega)⟩)
  | extract d n c =>
    by_cases h : d.toNat ≤ 9 ∧ n.toNat < 10 ^ d.toNat
    · obtain ⟨edge, he, hx⟩ := execExtract_of_lt d n c s h.1 h.2
      exact .inr (.inr (.inr ⟨d, n, c, edge, rfl, h.1, h.2, he, hx⟩))
    · exact .inr (.inl ⟨_, by simp, execExtract_of_ge d n c s (by omega)⟩)
  | pack e g c =>
    by_cases h : e.toNat ≤ 255 ∧ g.toNat < 2 ^ 23
    · exact .inl ⟨_, by simp, rfl, execPack_of_lt e g c s h.1 h.2⟩
    · exact .inr (.inl ⟨_, by simp, execPack_of_ge e g c s (by omega)⟩)
  | unpack w b c => exact .inl ⟨_, by simp, rfl, rfl⟩
  | decode w b c =>
    cases h : decodeString w with
    | some bytes => exact .inl ⟨{ bytes := bytes }, (decodeString_length h).2, rfl, execDecode_of_some h⟩
    | none => exact .inr (.inl ⟨_, by simp, execDecode_of_none h⟩)
  | reserved0 a b c => exact .inr (.inl ⟨_, by simp, rfl⟩)
  | reservedC a b c => exact .inr (.inl ⟨_, by simp, rfl⟩)
  | reservedD a b c => exact .inr (.inl ⟨_, by simp, rfl⟩)
  | reservedE a b c => exact .inr (.inl ⟨_, by simp, rfl⟩)
  | reservedF a b c => exact .inr (.inl ⟨_, by simp, rfl⟩)

end Sys2Proof.Machine
end

