-- ==== Sys2Proof/Laws/Extractor.lean ====
section
/-! SUPPORT. The extractor: one pass as long division in base 2, the loop of rule R160, and a run of ITER edges. -/

namespace Sys2Proof.Machine

/-! ## One pass (rules R33, R163) -/

theorem doublingRem_lt {edge rem : Nat} (h : rem < edge) : doublingRem edge rem < edge := by
  unfold doublingRem; split <;> omega

/-- The digit and the remainder of one pass are the quotient and the remainder of one more binary digit. -/
theorem doubling_pass (edge m : Nat) (he : 0 < edge) :
    m * 2 / edge = 2 * (m / edge) + (doublingDigit edge (m % edge)).toNat ∧
    m * 2 % edge = doublingRem edge (m % edge) := by
  have hr : m % edge < edge := Nat.mod_lt _ he
  have hm : edge * (m / edge) + m % edge = m := Nat.div_add_mod m edge
  unfold doublingDigit doublingRem
  by_cases h : edge ≤ 2 * (m % edge)
  · have hdm : m * 2 / edge = 2 * (m / edge) + 1 ∧ m * 2 % edge = 2 * (m % edge) - edge := by
      rw [Nat.div_mod_unique he]
      refine ⟨?_, by omega⟩
      rw [Nat.mul_add, Nat.mul_left_comm]; omega
    rw [hdm.1, hdm.2, if_pos h]
    simp [h]
  · have hdm : m * 2 / edge = 2 * (m / edge) ∧ m * 2 % edge = 2 * (m % edge) := by
      rw [Nat.div_mod_unique he]
      refine ⟨?_, by omega⟩
      rw [Nat.mul_left_comm]; omega
    rw [hdm.1, hdm.2, if_neg h]
    simp [h]

/-! ## The loop (rule R160) -/

/-- The loop's result after `j` passes that left a remainder: it stops at the first `k > j` that leaves none, or at
pass `j + left + 1`. -/
theorem extractLoop_spec (edge n left j : Nat) (acc : Word) (he : 0 < edge) (hj : j + left + 1 ≤ 23)
    (hacc : (reverseLowBits acc j).toNat = n * 2 ^ j / edge) :
    ∃ k, j + 1 ≤ k ∧ k ≤ j + left + 1 ∧ (∀ i, j + 1 ≤ i → i < k → n * 2 ^ i % edge ≠ 0) ∧
      (n * 2 ^ k % edge = 0 ∨ k = j + left + 1) ∧
      (extractLoop edge left (n * 2 ^ j % edge) acc j).exponent = k ∧
      (extractLoop edge left (n * 2 ^ j % edge) acc j).significand.toNat = n * 2 ^ k / edge ∧
      (extractLoop edge left (n * 2 ^ j % edge) acc j).truncated = decide (n * 2 ^ k % edge ≠ 0) := by
  obtain ⟨hq, hr⟩ := doubling_pass edge (n * 2 ^ j) he
  rw [Nat.mul_assoc, ← pow_succ] at hq hr
  have hacc' : (reverseLowBits (setBit acc j (doublingDigit edge (n * 2 ^ j % edge))) (j + 1)).toNat =
      n * 2 ^ (j + 1) / edge := by
    rw [reverseLowBits_setBit_toNat _ _ (by omega), hacc, hq]
  induction left generalizing j acc with
  | zero =>
    refine ⟨j + 1, le_rfl, by omega, fun i h1 h2 => by omega, .inr rfl, rfl, hacc', ?_⟩
    simp [extractLoop, extractionAt, truncFlag, hr]
  | succ left ih =>
    rw [extractLoop]
    by_cases h0 : doublingRem edge (n * 2 ^ j % edge) = 0
    · rw [if_pos h0]
      refine ⟨j + 1, le_rfl, by omega, fun i h1 h2 => by omega, .inl (by rw [hr, h0]), rfl, hacc', ?_⟩
      simp [extractionAt, truncFlag, hr]
    · rw [if_neg h0, ← hr]
      obtain ⟨hq', hr'⟩ := doubling_pass edge (n * 2 ^ (j + 1)) he
      rw [Nat.mul_assoc, ← pow_succ] at hq' hr'
      obtain ⟨k, h1, h2, h3, h4, h5⟩ := ih (j + 1) _ (by omega) hacc' hq' hr'
        (by rw [reverseLowBits_setBit_toNat _ _ (by omega), hacc', hq'])
      refine ⟨k, by omega, by omega, fun i hi hk => ?_, by rw [show j + (left + 1) + 1 = j + 1 + left + 1 by omega]; exact h4, h5⟩
      rcases Nat.lt_or_ge (j + 1) i with h | h
      · exact h3 i (by omega) hk
      · obtain rfl : i = j + 1 := by omega
        rw [hr]; exact h0

/-! ## A run of ITER edges (rule R33) -/

/-- What the last pass answers: EXTRACT posts the pair, ENCODE the packed word. -/
def finishIterations (s : State) (x : Extraction) : State :=
  if s.op = Opcode.extract then finishExtract s x.significand x.exponent x.truncated
  else finishEncode s x.significand x.exponent x.truncated

theorem doublingRem_narrow {s : State} (hr : s.rem.toNat < s.edge.toNat) :
    s.recordDigit.rem.toNat = doublingRem s.edge.toNat s.rem.toNat := by
  have := doublingRem_lt hr
  rw [State.recordDigit_rem, BitVec.toNat_ofNat]
  exact Nat.mod_eq_of_lt (by have := s.edge.isLt; omega)

theorem stepIter_last {s : State} (ho : s.op = Opcode.extract ∨ s.op = Opcode.encode)
    (hl : lastIteration s.pos.toNat (doublingRem s.edge.toNat s.rem.toNat) = true) :
    stepIter s = .next (finishIterations s.recordDigit
      (extractionAt (doublingRem s.edge.toNat s.rem.toNat) s.recordDigit.acc s.pos.toNat)) := by
  have hne : Opcode.encode ≠ Opcode.extract := by decide
  rcases ho with ho | ho <;> simp [stepIter, finishIterations, extractionAt, hl, ho, hne]

theorem stepIter_more {s : State} (hl : lastIteration s.pos.toNat (doublingRem s.edge.toNat s.rem.toNat) = false) :
    stepIter s = .next s.recordDigit.nextPosition := by
  simp [stepIter, hl]

theorem lastIteration_iff (pos rem : Nat) : lastIteration pos rem = true ↔ rem = 0 ∨ pos = 22 := by
  simp [lastIteration]

/-- No reset among the coming edges: none at the next one. -/
theorem State.presented_rst_of_forall {s : State} (hi : ∀ e ∈ s.inputs, e.rst = false) :
    s.presented.rst = false := by
  unfold State.presented
  cases h : s.inputs with
  | nil => rfl
  | cons e rest => exact hi e (by simp [h])

/-- From ITER with no reset to come, the core makes the passes of the loop and completes with its result. Only ACC,
REM, POS and the schedule have changed by then. -/
theorem steps_iter (left : Nat) (s : State) (hp : s.ph = .iter) (ho : s.op = Opcode.extract ∨ s.op = Opcode.encode)
    (hpos : s.pos.toNat + left = 22) (hr : s.rem.toNat < s.edge.toNat) (hi : ∀ e ∈ s.inputs, e.rst = false) :
    ∃ k u, 1 ≤ k ∧ k ≤ left + 1 ∧
      (extractLoop s.edge.toNat left s.rem.toNat s.acc s.pos.toNat).exponent = s.pos.toNat + k ∧
      u = { s with acc := u.acc, rem := u.rem, pos := u.pos, inputs := s.inputs.drop k } ∧
      steps k s = .next (finishIterations u (extractLoop s.edge.toNat left s.rem.toNat s.acc s.pos.toNat)) := by
  have hstep : step s = stepIter s.advanceInputs := step_iter (State.presented_rst_of_forall hi) hp
  induction left generalizing s with
  | zero =>
    have hl := (lastIteration_iff s.pos.toNat (doublingRem s.edge.toNat s.rem.toNat)).mpr (.inr (by omega))
    refine ⟨1, s.advanceInputs.recordDigit, le_rfl, by omega, rfl, ?_, ?_⟩
    · simp [State.recordDigit, State.advanceInputs]
    · exact (steps_succ 0 (hstep.trans (stepIter_last (s := s.advanceInputs) ho hl)))
  | succ left ih =>
    by_cases h0 : doublingRem s.edge.toNat s.rem.toNat = 0
    · have hl := (lastIteration_iff s.pos.toNat (doublingRem s.edge.toNat s.rem.toNat)).mpr (.inl h0)
      rw [extractLoop, if_pos h0]
      refine ⟨1, s.advanceInputs.recordDigit, le_rfl, by omega, rfl, ?_, ?_⟩
      · simp [State.recordDigit, State.advanceInputs]
      · exact (steps_succ 0 (hstep.trans (stepIter_last (s := s.advanceInputs) ho hl)))
    · have hl : lastIteration s.pos.toNat (doublingRem s.edge.toNat s.rem.toNat) = false := by
        rw [Bool.eq_false_iff, ne_eq, lastIteration_iff]; omega
      have hnext := hstep.trans (stepIter_more (s := s.advanceInputs) hl)
      have hpos' : s.advanceInputs.recordDigit.nextPosition.pos.toNat = s.pos.toNat + 1 := by
        rw [State.nextPosition_pos, BitVec.toNat_add]
        exact Nat.mod_eq_of_lt (by simp; omega)
      have hrem : s.advanceInputs.recordDigit.nextPosition.rem.toNat = doublingRem s.edge.toNat s.rem.toNat :=
        doublingRem_narrow (s := s.advanceInputs) hr
      have hi' : ∀ e ∈ s.advanceInputs.recordDigit.nextPosition.inputs, e.rst = false :=
        fun e he => hi e (List.mem_of_mem_tail he)
      obtain ⟨k, u, h1, h2, h3, h4, h5⟩ := ih s.advanceInputs.recordDigit.nextPosition hp ho (by omega)
        (by rw [hrem]; exact doublingRem_lt hr) hi' (step_iter (State.presented_rst_of_forall hi') hp)
      rw [extractLoop, if_neg h0]
      rw [hrem, hpos'] at h3 h5
      refine ⟨k + 1, u, by omega, by omega, h3.trans (by omega), ?_, (steps_succ k hnext).trans h5⟩
      rw [h4]
      simp [State.recordDigit, State.advanceInputs, State.nextPosition]

end Sys2Proof.Machine
end

