-- ==== Sys2Proof/Laws/Invariant.lean ====
section
/-! SUPPORT. What each shared operation does to the invariant of rule R36. -/

namespace Sys2Proof.Machine

/-- The invariant does not read the host's schedule. -/
theorem State.Inv.facing {s : State} (h : s.Inv) (es : List HostInput) : (s.facing es).Inv :=
  ⟨h.1, h.2, h.3, h.4, h.5, h.6, h.7, h.8, h.9, h.10, h.11, h.12, h.13, h.14⟩

/-- A command in progress shows no result. -/
theorem State.Inv.cleared {s : State} (h : s.Inv) (hp : s.ph ≠ .idle) : s.cleared := by
  obtain ⟨h1, h2, h3, h4, h5, h6, h7⟩ := h.busy_absent hp
  exact ⟨Bool.eq_false_iff.mpr fun hd => hp (h.done_idle hd), h1, h6, h2, h3, h4, h5, h7,
    fun i => h.obuf_tail i (by simp [h7])⟩

theorem State.Inv.accept {s : State} (h : s.Inv) (hp : s.ph = .idle) (op : BitVec 4) (a b : Word) (c : Bool) :
    (s.accept op a b c).Inv := by
  constructor <;> simp [hp, h.dcnt_le, h.num_lt, Memory.wf, Memory.wfFrom]

theorem State.Inv.post {s : State} (h : s.Inv) (ho : s.olen = 0) (r : Result) (hl : r.bytes.length ≤ 25) :
    (s.post r).Inv := by
  obtain ⟨-, -, -, -, -, -, -, -, hlen, hread⟩ :=
    State.post_posted s r h.obuf_wf (fun i => h.obuf_tail i (by simp [ho])) hl
  constructor <;> try simp
  · exact h.dcnt_le
  · exact h.num_lt
  · omega
  · intro i hi
    rw [← State.post_obuf, hread, List.getD_eq_default _ _ (by rw [← hlen]; exact hi)]
  · exact Memory.wf_writeBytes _ h.obuf_wf (by omega)

theorem State.Inv.raise {s : State} (h : s.Inv) (hc : s.cleared) (k : Code) : (s.raise k).Inv := by
  obtain ⟨-, -, h1, h2, h3, h4, h5, h6, -⟩ := hc
  constructor <;> try simp
  · exact h.dcnt_le
  · exact h.num_lt
  · exact fun _ => ⟨h2, h3, h4, h5, h1, h6⟩
  · exact h.olen_le
  · exact h.obuf_tail
  · exact h.obuf_wf

theorem State.Inv.startScan {s : State} (h : s.Inv) (hc : s.cleared)
    (ho : s.op = Opcode.validate ∨ s.op = Opcode.parse ∨ s.op = Opcode.encode) : s.startScan.Inv := by
  obtain ⟨h1, h2, h3, h4, h5, h6, h7, h8, h9⟩ := hc
  constructor <;> try simp [*]
  exact h.obuf_wf

theorem State.Inv.startIter {s : State} (h : s.Inv) (hc : s.cleared) {d : BitVec 4} {n edge : Word}
    (ho : s.op = Opcode.extract ∨ s.op = Opcode.encode) (hd : d.toNat ≤ 9) (hn : n.toNat < 10 ^ d.toNat)
    (he : edge.toNat = 10 ^ d.toNat) : (s.startIter d n edge).Inv := by
  obtain ⟨h1, h2, h3, h4, h5, h6, h7, h8, h9⟩ := hc
  constructor <;> try simp [*]
  exact h.obuf_wf

/-- Rule R121 keeps DCNT ≤ 9 and NUM < 10^DCNT. -/
theorem State.Inv.parserUpdate {s : State} (h : s.Inv) (hp : s.ph = .scan) (b : Byte) : (parserUpdate b s).Inv := by
  have hf := parserUpdate_frame b s
  have hd : (Machine.parserUpdate b s).dcnt.toNat ≤ 9 ∧
      (Machine.parserUpdate b s).num.toNat < 10 ^ (Machine.parserUpdate b s).dcnt.toNat := by
    by_cases hdig : 0x30 ≤ b.toNat ∧ b.toNat ≤ 0x39
    · cases hs : s.seen with
      | false => rw [parserUpdate_digit_before hdig hs]; exact ⟨h.dcnt_le, h.num_lt⟩
      | true =>
        by_cases h9 : s.dcnt = 9#4
        · rw [parserUpdate_digit_full hdig hs h9]; exact ⟨h.dcnt_le, h.num_lt⟩
        · have hlt : s.dcnt.toNat < 9 := by
            have : s.dcnt.toNat ≠ 9 := fun hc => h9 (BitVec.eq_of_toNat_eq (by simpa using hc))
            have := h.dcnt_le
            omega
          obtain ⟨h1, h2⟩ := numerator_digit (v := b.toNat - 0x30) h.num_lt hlt (by omega)
          rw [parserUpdate_digit_after hdig hs h9]
          simp only [dcnt_succ hlt, h2]
          exact ⟨by omega, h1⟩
    · by_cases hdot : b.toNat = 0x2E
      · obtain rfl := (byte_dot_iff b).mpr hdot
        rw [parserUpdate_dot]
        split <;> exact ⟨h.dcnt_le, h.num_lt⟩
      · rw [parserUpdate_other hdig hdot]; exact ⟨h.dcnt_le, h.num_lt⟩
  have hph : (Machine.parserUpdate b s).ph = .scan := by rw [hf]; exact hp
  constructor
  · exact hd.1
  · exact hd.2
  · simp [hph]
  · simp [hph]
  · simp [hph]
  · simp [hph]
  · rw [hf]; exact h.done_idle
  · rw [hf]; exact h.failed_absent
  · rw [hf]; exact h.olen_le
  · rw [hf]; exact h.obuf_tail
  · rw [hf]; exact h.obuf_wf
  · rw [hf]; exact h.scan_op
  · rw [hf]; exact h.iter_op
  · rw [hf]; exact h.busy_absent

theorem State.Inv.scanString (str : List Byte) {s : State} (h : s.Inv) (hp : s.ph = .scan) :
    (scanString str s).Inv := by
  induction str generalizing s with
  | nil => exact h
  | cons b str ih =>
    exact ih (h.parserUpdate hp b) (by show (Machine.parserUpdate b s).ph = _; rw [parserUpdate_frame]; exact hp)

/-- The END symbol: everything it can do, for each string operation (rule R32). -/
theorem State.Inv.endOfString {s : State} (h : s.Inv) (hp : s.ph = .scan) :
    ∃ t, endOfString s = .next t ∧ t.Inv := by
  have hc := h.cleared (by simp [hp])
  have h0 : s.olen = 0 := hc.2.2.2.2.2.2.2.1
  have hne1 : Opcode.parse ≠ Opcode.validate := by decide
  have hne2 : Opcode.encode ≠ Opcode.validate := by decide
  have hne3 : Opcode.encode ≠ Opcode.parse := by decide
  rcases h.scan_op hp with ho | ho | ho
  · exact ⟨_, by simp [Machine.endOfString, ho]; rfl, h.post h0 _ (by simp)⟩
  · refine ⟨_, by simp [Machine.endOfString, ho, hne1]; rfl, ?_⟩
    unfold finishParse State.complete
    split
    · exact h.post h0 _ (by simp)
    · exact h.raise hc _
  · simp only [Machine.endOfString, ho, hne2, hne3, if_false, if_true, endOfEncodeString]
    split
    · obtain ⟨edge, he, hv⟩ := pow10_of_le h.dcnt_le
      rw [he]
      exact ⟨_, rfl, h.startIter hc (.inr ho) h.dcnt_le h.num_lt hv⟩
    · exact ⟨_, rfl, h.raise hc _⟩

/-- One pass keeps REM < EDGE and ACC < 2^POS (rules R33, R36). -/
theorem State.Inv.stepIter {s : State} (h : s.Inv) (hp : s.ph = .iter) : ∃ t, stepIter s = .next t ∧ t.Inv := by
  obtain ⟨-, -, -, -, -, -, h7⟩ := h.busy_absent (by simp [hp])
  have hr := h.iter_rem hp
  have hpos := h.iter_pos hp
  have hpost : ∀ r : Result, r.bytes = [] → (s.recordDigit.post r).Inv := by
    intro r hb
    constructor <;> try simp [hb, Memory.writeBytes]
    · exact h.dcnt_le
    · exact h.num_lt
    · intro i; exact h.obuf_tail i (by simp [h7])
    · exact h.obuf_wf
  cases hl : lastIteration s.pos.toNat (doublingRem s.edge.toNat s.rem.toNat) with
  | true =>
    refine ⟨_, stepIter_last (h.iter_op hp) hl, ?_⟩
    unfold finishIterations finishExtract finishEncode
    split <;> exact hpost _ rfl
  | false =>
    have hn : ¬s.pos.toNat = 22 := fun hc => by
      have := (lastIteration_iff s.pos.toNat (doublingRem s.edge.toNat s.rem.toNat)).mpr (.inr hc)
      rw [hl] at this; cases this
    have hps : (s.pos + 1).toNat = s.pos.toNat + 1 := by
      rw [BitVec.toNat_add]; exact Nat.mod_eq_of_lt (by simp; omega)
    refine ⟨_, stepIter_more hl, ?_⟩
    constructor
    · exact h.dcnt_le
    · exact h.num_lt
    · exact h.iter_edge
    · intro _; rw [State.nextPosition_rem, doublingRem_narrow hr]; exact doublingRem_lt hr
    · intro _; rw [State.nextPosition_pos, State.recordDigit_pos, hps]; omega
    · intro _
      rw [State.nextPosition_pos, State.recordDigit_pos, hps]
      exact setBit_toNat_lt _ (by omega) (h.iter_acc hp)
    · exact h.done_idle
    · exact h.failed_absent
    · exact h.olen_le
    · exact h.obuf_tail
    · exact h.obuf_wf
    · exact h.scan_op
    · exact h.iter_op
    · exact h.busy_absent

end Sys2Proof.Machine
end

