-- ==== Sys2Proof/Laws/PerInstr.lean ====
section
/-! SUPPORT. Facts said once for each command. FieldPlacement: the command word of a command holds its opcode in
bits 68..65 and its operands in the fields rule R70 gives them. -/

namespace Sys2Proof.Laws.FieldPlacement

def Statement (i : Instr) : Prop :=
  CommandWord.op (encodeCommand i) = i.opcode ∧
  (CommandWord.a (encodeCommand i), CommandWord.b (encodeCommand i), CommandWord.c (encodeCommand i)) = i.operands

theorem of_build (i : Instr) : Statement i :=
  ⟨CommandWord.op_build .., by
    rw [encodeCommand, CommandWord.a_build, CommandWord.b_build, CommandWord.c_build]⟩

theorem setbit (a b : Word) (c : Bool) : Statement (.setbit a b c) := of_build _
theorem getbit (a b : Word) (c : Bool) : Statement (.getbit a b c) := of_build _
theorem revlow (a b : Word) (c : Bool) : Statement (.revlow a b c) := of_build _
theorem validate (a b : Word) (c : Bool) : Statement (.validate a b c) := of_build _
theorem parse (a b : Word) (c : Bool) : Statement (.parse a b c) := of_build _
theorem lookup (a b : Word) (c : Bool) : Statement (.lookup a b c) := of_build _
theorem extract (a b : Word) (c : Bool) : Statement (.extract a b c) := of_build _
theorem pack (a b : Word) (c : Bool) : Statement (.pack a b c) := of_build _
theorem unpack (a b : Word) (c : Bool) : Statement (.unpack a b c) := of_build _
theorem encode (a b : Word) (c : Bool) : Statement (.encode a b c) := of_build _
theorem decode (a b : Word) (c : Bool) : Statement (.decode a b c) := of_build _
theorem reserved0 (a b : Word) (c : Bool) : Statement (.reserved0 a b c) := of_build _
theorem reservedC (a b : Word) (c : Bool) : Statement (.reservedC a b c) := of_build _
theorem reservedD (a b : Word) (c : Bool) : Statement (.reservedD a b c) := of_build _
theorem reservedE (a b : Word) (c : Bool) : Statement (.reservedE a b c) := of_build _
theorem reservedF (a b : Word) (c : Bool) : Statement (.reservedF a b c) := of_build _

end Sys2Proof.Laws.FieldPlacement
end

