-- ==== Sys2Proof/Laws/Runs.lean ====
section
/-! SUPPORT. Whole commands: a string command from ACCEPT to END, the verdict of its scan, and the extractor from its
start to its completion. -/

namespace Sys2Proof.Machine

theorem ofNat_toNat_of_lt {n k : Nat} (h : n < 2 ^ k) : (BitVec.ofNat k n).toNat = n := by
  rw [BitVec.toNat_ofNat]; exact Nat.mod_eq_of_lt h

/-- A result is posted as given when OBUF lists nothing. -/
theorem State.post_posted_of_empty {s : State} (ho : s.obuf = []) (r : Result) (hl : r.bytes.length ≤ 25) :
    (s.post r).posted r :=
  State.post_posted s r (by rw [ho]; rfl) (by rw [ho]; simp) hl

/-! ## A string command up to END -/

/-- ACCEPT, the characters, END: what the whole delivery of `str` answers, given what END answers. -/
theorem steps_stringEdges {i : Instr} {str : List Byte} {s t u : State} (hp : s.ph = .idle)
    (hd : decodeCommand (encodeCommand i) = i) (hi : ∀ es, exec i (s.facing es) = .next (t.facing es))
    (ht : t.ph = .scan) (hu : endOfString ((scanString str t).facing []) = .next u) :
    steps (str.length + 2) (s.facing (stringEdges i str)) = .next u := by
  have hs : (scanString str t).ph = .scan := by
    obtain ⟨_, _, _, _, _, h⟩ := scanString_frame str t
    rw [h]; exact ht
  rw [show str.length + 2 = (str.length + 1) + 1 by omega,
    steps_add _ 1 (steps_stringCommand i str s t hp hd (hi _) ht)]
  exact steps_succ 0 ((step_endSymbol (scanString str t) [] hs).trans hu)

/-- What stands when the characters of a string command have been consumed. -/
theorem scanString_started (s : State) (op : BitVec 4) (a b : Word) (c : Bool) (str : List Byte) :
    let u := (scanString str (s.accept op a b c).startScan).facing []
    u.op = op ∧ u.opa = a ∧ u.opb = b ∧ u.opc = c ∧ u.inputs = [] ∧ s.sameExtractor u ∧ u.cleared ∧ u.obuf = [] ∧
      u.seen = decide (0x2E#8 ∈ str) ∧ (u.bad = false ↔ ValidDecimal str) := by
  obtain ⟨p1, p2, p3, p4, p5, h⟩ := scanString_frame str (s.accept op a b c).startScan
  have hseen := scanString_seen str (s.accept op a b c).startScan
  have hbad := scanString_bad str (s.accept op a b c).startScan
  simp only [State.startScan_seen, State.startScan_bad, Bool.false_or, true_and, Bool.toNat_false, Nat.zero_add]
    at hseen hbad
  refine ⟨?_, ?_, ?_, ?_, rfl, ?_, ?_, ?_, hseen, hbad⟩
  all_goals (rw [h]; simp [State.facing, State.sameExtractor, State.cleared])

/-- The invariant holds when the scan starts, whatever held before. -/
theorem State.startScan_inv (s : State) {op : BitVec 4} (a b : Word) (c : Bool)
    (ho : op = Opcode.validate ∨ op = Opcode.parse ∨ op = Opcode.encode) : (s.accept op a b c).startScan.Inv := by
  constructor <;> try simp [Memory.wf, Memory.wfFrom]
  exact ho

/-- The scan of `whole . frac`: a point, no structural failure, OVF iff more than nine fractional digits, and the pair
of rule R125 when there are at most nine. -/
theorem scanString_decimal {whole frac : List Byte} (hw : AllDigits whole) (hf : AllDigits frac) {t : State}
    (h1 : t.seen = false) (h2 : t.bad = false) (h3 : t.ovf = false) (h4 : t.dcnt = 0#4) (h5 : t.num = 0#32) :
    let u := scanString (decimalString whole frac) t
    u.seen = true ∧ u.bad = false ∧ u.ovf = decide (9 < frac.length) ∧
      (frac.length ≤ 9 → u.dcnt = BitVec.ofNat 4 frac.length ∧ u.num = BitVec.ofNat 32 (digitsValue frac)) := by
  have hs : scanString (decimalString whole frac) t = scanString frac { t with seen := true } := by
    rw [decimalString, scanString_append, scanString_before whole hw h1, scanString_cons, parserUpdate_dot, h1]; rfl
  have hnd : (0x2E#8 : Byte) ∉ frac := fun hm => by
    have := hf _ hm
    simp at this
  refine ⟨?_, ?_, ?_, fun hl => ?_⟩
  · rw [scanString_seen]; simp [decimalString]
  · rw [hs, scanString_bad]
    exact ⟨h2, fun b hb => .inl (hf b hb), by simp [List.count_eq_zero.mpr hnd]⟩
  · rw [hs, scanString_ovf frac hf rfl (by simp [h4])]
    simp [h3, h4]
  · rw [hs, scanString_after frac hf hl (s := { t with seen := true }) rfl h4 h5]
    exact ⟨rfl, rfl⟩

/-- The verdict of rule R123 by the shape of the string. -/
theorem parseVerdict_scanString (str : List Byte) {t : State} (h1 : t.seen = false) (h2 : t.bad = false)
    (h3 : t.ovf = false) (h4 : t.dcnt = 0#4) (h5 : t.num = 0#32) :
    (¬ValidDecimal str → parseVerdict (scanString str t) = .invalidInput) ∧
    (0x2E#8 ∉ str → parseVerdict (scanString str t) = .invalidInput) ∧
    (∀ whole frac, AllDigits whole → AllDigits frac → str = decimalString whole frac →
      (frac = [] → parseVerdict (scanString str t) = .invalidInput) ∧
      (9 < frac.length → parseVerdict (scanString str t) = .fracTooLong) ∧
      (1 ≤ frac.length → frac.length ≤ 9 → parseVerdict (scanString str t) = .ok)) := by
  have hb := scanString_bad str t
  have hs := scanString_seen str t
  simp only [h1, h2, true_and, Bool.toNat_false, Nat.zero_add, Bool.false_or] at hb hs
  refine ⟨fun hv => ?_, fun hm => by simp [parseVerdict, hs, hm], ?_⟩
  · simp [parseVerdict, Bool.eq_true_of_not_eq_false fun hc => hv (hb.mp hc)]
  · rintro whole frac hw hf rfl
    obtain ⟨d1, d2, d3, d4⟩ := scanString_decimal hw hf h1 h2 h3 h4 h5
    refine ⟨?_, fun h9 => by simp [parseVerdict, d1, d2, d3, h9], fun hl h9 => ?_⟩
    · rintro rfl
      obtain ⟨d4, -⟩ := d4 (by simp)
      simp [parseVerdict, d1, d2, d3, d4]
    · obtain ⟨d4, -⟩ := d4 h9
      have : BitVec.ofNat 4 frac.length ≠ 0#4 := by
        intro hc
        have := congrArg BitVec.toNat hc
        rw [ofNat_toNat_of_lt (by omega)] at this
        simp at this; rw [this] at hl; simp at hl
      simp only [parseVerdict, d1, d2, d3, d4]
      simp [h9, this]

/-! ## The extractor from start to completion -/

/-- A fresh start with nothing more presented: as many edges as the exponent, then the loop's result (rule R160). -/
theorem steps_startIter {v : State} {d : Nat} {n edge : Word} (D : BitVec 4) (hn : n.toNat < 10 ^ d)
    (he : edge.toNat = 10 ^ d) (ho : v.op = Opcode.extract ∨ v.op = Opcode.encode) (hi : v.inputs = []) :
    ∃ u, u = { v.startIter D n edge with acc := u.acc, rem := u.rem, pos := u.pos } ∧
      steps (extractPair d n.toNat).exponent (v.startIter D n edge) =
        .next (finishIterations u (extractPair d n.toNat)) := by
  obtain ⟨k, u, -, -, h3, h4, h5⟩ := steps_iter 22 (v.startIter D n edge) rfl ho (by simp)
    (by simpa [he] using hn) (by simp [hi])
  simp only [State.startIter_edge, State.startIter_rem, State.startIter_acc, State.startIter_pos, he] at h3 h5
  have hx : extractLoop (10 ^ d) 22 n.toNat 0 (BitVec.toNat (0 : BitVec 5)) = extractPair d n.toNat := rfl
  rw [hx] at h3 h5
  rw [show (extractPair d n.toNat).exponent = k by rw [h3]; simp]
  refine ⟨u, ?_, h5⟩
  rw [h4]
  simp [State.startIter, hi]

/-! ## Digit strings -/

theorem digitsValue_append_list (f g : List Byte) :
    digitsValue (f ++ g) = digitsValue f * 10 ^ g.length + digitsValue g := by
  induction g using List.reverseRecOn with
  | nil => simp [digitsValue]
  | append_singleton g b ih =>
    rw [← List.append_assoc, digitsValue_append, ih, digitsValue_append, List.length_append, List.length_singleton,
      pow_succ]
    ring

/-- A string is its part without trailing zeros, which ends in another byte, and then zeros. -/
theorem dropTrailingZeros_append (f : List Byte) :
    ∃ z, f = dropTrailingZeros f ++ List.replicate z 0x30#8 ∧
      ∀ x l, dropTrailingZeros f = l ++ [x] → x ≠ 0x30#8 := by
  induction f using List.reverseRecOn with
  | nil => exact ⟨0, rfl, fun x l h => by simp [dropTrailingZeros] at h⟩
  | append_singleton f b ih =>
    obtain ⟨z, h1, h2⟩ := ih
    by_cases hb : b = 0x30#8
    · subst hb
      rw [show dropTrailingZeros (f ++ [0x30#8]) = dropTrailingZeros f by simp [dropTrailingZeros]]
      exact ⟨z + 1, by rw [List.replicate_succ', ← List.append_assoc, ← h1], h2⟩
    · rw [show dropTrailingZeros (f ++ [b]) = f ++ [b] by simp [dropTrailingZeros, hb]]
      refine ⟨0, by simp, fun x l h => ?_⟩
      have := List.append_inj' h rfl
      simp at this
      rw [← this.2]; exact hb

end Sys2Proof.Machine
end

