-- ==== Sys2Proof/Tests/Slice0.lean ====
section
/-! SUPPORT. Small tests on fixed values: well-formedness, decoding of command words written out from the spec, one
step of each command, and a witness for the hypotheses of each obligation that has some. Expected values come from
spec/95_test_vectors.md unless a comment names another source. -/

namespace Sys2Proof.Tests

open Sys2Proof Sys2Proof.Machine

/-! ## Helpers -/

/-- The outcome is a next state with the property. -/
def gives (o : Host.Outcome State Fault Refusal) (p : State → Bool) : Bool :=
  match o with
  | .next t => p t
  | .fault _ => false
  | .refused _ => false

/-- A string of test bytes. -/
def bytesOf (l : List Nat) : List Byte := l.map fun n => BitVec.ofNat 8 n

/-- A core in the middle of a string: after ACCEPT of `op`, with these parser registers and the edges to come. -/
def scanning (op : BitVec 4) (seen bad ovf : Bool) (dcnt : BitVec 4) (num : Word) (edges : List HostInput) : State :=
  { State.reset with op := op, ph := .scan, seen := seen, bad := bad, ovf := ovf, dcnt := dcnt, num := num,
                     inputs := edges }

/-- A core in the middle of the extractor's loop, nothing presented. -/
def iterating (op dcnt : BitVec 4) (num edge rem acc : Word) (pos : BitVec 5) : State :=
  { State.reset with op := op, ph := .iter, dcnt := dcnt, num := num, edge := edge, rem := rem, acc := acc, pos := pos }

theorem scanning_inv {op : BitVec 4} {seen bad ovf : Bool} {dcnt : BitVec 4} {num : Word} {edges : List HostInput}
    (ho : op = Opcode.validate ∨ op = Opcode.parse ∨ op = Opcode.encode) (hd : dcnt.toNat ≤ 9)
    (hn : num.toNat < 10 ^ dcnt.toNat) : (scanning op seen bad ovf dcnt num edges).Inv := by
  constructor <;> simp [scanning, State.reset, Memory.wf, Memory.wfFrom, *]

theorem iterating_inv {op dcnt : BitVec 4} {num edge rem acc : Word} {pos : BitVec 5}
    (ho : op = Opcode.extract ∨ op = Opcode.encode) (hd : dcnt.toNat ≤ 9) (hn : num.toNat < 10 ^ dcnt.toNat)
    (he : edge.toNat = 10 ^ dcnt.toNat) (hr : rem.toNat < edge.toNat) (hp : pos.toNat ≤ 22)
    (ha : acc.toNat < 2 ^ pos.toNat) : (iterating op dcnt num edge rem acc pos).Inv := by
  constructor <;> simp [iterating, State.reset, Memory.wf, Memory.wfFrom, ho, hd, hn, he, hp, ha, he ▸ hr]

/-! ## Well-formedness (rules R71, R73, R58): an ill-formed term for each check -/

theorem test_setbit_n_32_refused : (Instr.setbit 0 32 true).wellFormed = false := by decide
theorem test_setbit_n_31_accepted : (Instr.setbit 0 31 true).wellFormed = true := by decide
theorem test_getbit_n_32_refused : (Instr.getbit 5 32 false).wellFormed = false := by decide
theorem test_revlow_count_33_refused : (Instr.revlow 0 33 false).wellFormed = false := by decide
theorem test_extract_digit_count_10_refused : (Instr.extract 10 0 false).wellFormed = false := by decide
theorem test_extract_numerator_10_refused : (Instr.extract 1 10 false).wellFormed = false := by decide
theorem test_extract_numerator_9_accepted : (Instr.extract 1 9 false).wellFormed = true := by decide
theorem test_pack_exponent_256_refused : (Instr.pack 256 0 false).wellFormed = false := by decide
theorem test_pack_significand_2_23_refused : (Instr.pack 1 0x800000 false).wellFormed = false := by decide
theorem test_reserved0_refused : (Instr.reserved0 0 0 false).wellFormed = false := by decide
theorem test_reservedC_refused : (Instr.reservedC 0 0 false).wellFormed = false := by decide
theorem test_reservedD_refused : (Instr.reservedD 0 0 false).wellFormed = false := by decide
theorem test_reservedE_refused : (Instr.reservedE 0 0 false).wellFormed = false := by decide
theorem test_reservedF_refused : (Instr.reservedF 0 0 false).wellFormed = false := by decide
theorem test_delivery_without_end_refused : Symbol.wellFormedDelivery [.ch 0x30] = false := by decide
theorem test_delivery_after_end_refused : Symbol.wellFormedDelivery [.endOfString, .ch 0x30] = false := by decide
theorem test_delivery_two_ends_refused : Symbol.wellFormedDelivery [.endOfString, .endOfString] = false := by decide
theorem test_delivery_accepted : Symbol.wellFormedDelivery (Symbol.delivery (bytesOf [0x30, 0x2E, 0x35])) = true := by
  decide

/-! ## Decoding: a word for each constructor. Those with an opcode 1 to 11 are the spec's printed words
(95_test_vectors.md sections 2.8 and 3) or its encoding with those operands (rule R70). -/

theorem test_decode_setbit : decodeTableWord 69 0x030000000100000002 = some (.setbit 1 2 true) := by decide
theorem test_decode_getbit : decodeTableWord 69 0x040000000500000001 = some (.getbit 5 1 false) := by decide
theorem test_decode_revlow : decodeTableWord 69 0x060000000500000003 = some (.revlow 5 3 false) := by decide
theorem test_decode_validate : decodeTableWord 69 0x080000000000000000 = some (.validate 0 0 false) := by decide
theorem test_decode_parse : decodeTableWord 69 0x0A0000000000000000 = some (.parse 0 0 false) := by decide
theorem test_decode_lookup : decodeTableWord 69 0x0C0000001700000000 = some (.lookup 23 0 false) := by decide
theorem test_decode_extract : decodeTableWord 69 0x0E0000000400000096 = some (.extract 4 150 false) := by decide
theorem test_decode_pack : decodeTableWord 72 0x10000000170001EB85 = some (.pack 23 125829 false) := by decide
theorem test_decode_unpack : decodeTableWord 72 0x120B81EB8500000000 = some (.unpack 0x0B81EB85 0 false) := by decide
theorem test_decode_encode : decodeTableWord 72 0x140000000000000000 = some (.encode 0 0 false) := by decide
theorem test_decode_decode : decodeTableWord 72 0x160180000500000000 = some (.decode 0x01800005 0 false) := by decide
theorem test_decode_reserved0 : decodeTableWord 69 0 = some (.reserved0 0 0 false) := by decide
theorem test_decode_reservedC : decodeTableWord 69 0x190000000100000002 = some (.reservedC 1 2 true) := by decide
theorem test_decode_reservedD : decodeTableWord 69 0x1A0000000000000000 = some (.reservedD 0 0 false) := by decide
theorem test_decode_reservedE : decodeTableWord 69 0x1C0000000000000000 = some (.reservedE 0 0 false) := by decide
theorem test_decode_reservedF : decodeTableWord 69 0x1E0000000000000000 = some (.reservedF 0 0 false) := by decide
theorem test_decode_above_bit_68_refused : decodeNat 0x200000000000000000 = .error .widerThanACommand := by decide
theorem test_decode_symbol_end : decodeSymbol 0x130#9 = .endOfString := by decide
theorem test_decode_symbol_ch : decodeSymbol 0x02E#9 = .ch 0x2E := by decide

/-! ## One step of each command from reset -/

theorem test_setbit_other_bits : gives (exec (.setbit 0x01800005 31 true) .reset)
    (fun t => t.code == .ok && t.rx == 0x81800005 && t.done && t.ph == .idle) = true := by decide
theorem test_setbit_whole_operand : gives (exec (.setbit 0 0x100 true) .reset)
    (fun t => t.code == .badOperand && t.rx == 0 && t.opb == 0x100) = true := by decide
theorem test_getbit_top : gives (exec (.getbit 0x80000000 31 false) .reset)
    (fun t => t.code == .ok && t.rx == 1) = true := by decide
theorem test_getbit_32 : gives (exec (.getbit 5 32 false) .reset) (fun t => t.code == .badOperand) = true := by decide
theorem test_revlow_discards : gives (exec (.revlow 0x12345678 23 false) .reset)
    (fun t => t.code == .ok && t.rx == 0x0F3516) = true := by decide +kernel
theorem test_revlow_whole_word : gives (exec (.revlow 2 32 false) .reset) (fun t => t.rx == 0x40000000) = true := by
  decide +kernel
theorem test_validate_starts_scan : gives (exec (.validate 0 0 false) .reset)
    (fun t => t.ph == .scan && !t.done && t.op == 4#4) = true := by decide
theorem test_validate_end : gives (step (scanning Opcode.validate true false false 3 34 [HostInput.symbol .endOfString]))
    (fun t => t.code == .ok && t.rx == 1 && t.done && t.ph == .idle) = true := by decide
theorem test_parse_starts_scan : gives (exec (.parse 0 0 false) { State.reset with dcnt := 3, num := 340, bad := true })
    (fun t => t.ph == .scan && t.dcnt == 0 && t.num == 0 && !t.bad) = true := by decide
theorem test_parse_end : gives (step (scanning Opcode.parse true false false 4 150 [HostInput.symbol .endOfString]))
    (fun t => t.code == .ok && t.rx == 4 && t.ry == 150) = true := by decide
theorem test_lookup_23 : gives (exec (.lookup 23 0 true) .reset)
    (fun t => t.code == .ok && t.rw == 11920928955078125 && t.rx == 23) = true := by decide
theorem test_lookup_whole_operand : gives (exec (.lookup 0x101 0 false) .reset)
    (fun t => t.code == .unsupportedExponent && t.rw == 0) = true := by decide
theorem test_extract_starts : gives (exec (.extract 3 625 false) .reset)
    (fun t => t.ph == .iter && t.edge == 1000 && t.rem == 625 && t.dcnt == 3) = true := by decide
theorem test_extract_last_pass : gives (step (iterating Opcode.extract 3 625 1000 500 1 2))
    (fun t => t.rx == 5 && t.ry == 3 && !t.trunc && t.acc == 5 && t.rem == 0 && t.pos == 2 && t.done) = true := by decide +kernel
theorem test_pack_sign : gives (exec (.pack 1 1 true) .reset) (fun t => t.code == .ok && t.rx == 0x80800001) = true := by
  decide
theorem test_pack_256 : gives (exec (.pack 256 0 false) .reset) (fun t => t.code == .badOperand && t.rx == 0) = true := by
  decide
theorem test_unpack_sign : gives (exec (.unpack 0x80800001 0 false) .reset)
    (fun t => t.rx == 1 && t.ry == 1 && t.rz == 1) = true := by decide
theorem test_unpack_all_ones : gives (exec (.unpack 0xFFFFFFFF 0 false) .reset)
    (fun t => t.rx == 0x7FFFFF && t.ry == 255 && t.rz == 1) = true := by decide
theorem test_encode_end_starts : gives
    (step (scanning Opcode.encode true false false 3 625 [HostInput.symbol .endOfString]))
    (fun t => t.ph == .iter && t.edge == 1000 && t.rem == 625 && t.acc == 0) = true := by decide
theorem test_encode_last_pass : gives (step (iterating Opcode.encode 1 1 10 4 0x199998 22))
    (fun t => t.rx == 0x0B8CCCCC && t.trunc && t.ry == 0 && t.rem == 8 && t.pos == 22) = true := by decide +kernel
theorem test_decode_pads : gives (exec (.decode 0x03000001 0 false) .reset)
    (fun t => t.olen == 8 &&
      t.outputString == bytesOf [0x30, 0x2E, 0x30, 0x31, 0x35, 0x36, 0x32, 0x35]) = true := by decide
theorem test_decode_wide_significand : gives (exec (.decode 0x00800003 0 false) .reset)
    (fun t => t.olen == 4 && t.outputString == bytesOf [0x30, 0x2E, 0x31, 0x35]) = true := by decide
theorem test_reserved0_step : gives (exec (.reserved0 1 2 true) .reset) (fun t => t.code == .illegalOp && t.op == 0) =
    true := by decide
theorem test_reservedC_step : gives (exec (.reservedC 1 2 true) .reset)
    (fun t => t.code == .illegalOp && t.op == 0xC && t.opa == 1 && t.opb == 2 && t.opc) = true := by decide
theorem test_reservedD_step : gives (exec (.reservedD 1 2 true) .reset)
    (fun t => t.code == .illegalOp && t.op == 0xD) = true := by decide
theorem test_reservedE_step : gives (exec (.reservedE 1 2 true) .reset)
    (fun t => t.code == .illegalOp && t.op == 0xE) = true := by decide
theorem test_reservedF_step : gives (exec (.reservedF 1 2 true) .reset)
    (fun t => t.code == .illegalOp && t.op == 0xF) = true := by decide

/-- An edge with `rst` = 1 wins over a command at the same edge (rule R250). -/
theorem test_reset_dominates : gives
    (step { State.reset with rx := 7, inputs := [{ rst := true, cmd := some 0x030000000000000020#69 }] })
    (fun t => t == State.reset) = true := by decide

/-- The host's two checks on one word: it is decoded, and the next step runs it. -/
theorem test_fetch_word_runs : gives (step (State.reset.withFetchWord 72 0x060000000500000003))
    (fun t => t.rx == 5 && t.code == .ok && t.inputs == []) = true := by decide +kernel

/-! ## Witnesses: for each obligation with hypotheses, a concrete state and operands that meet them, each clause at the
ends of its range -/

theorem test_hyp_StepRunsThePresentedCommand :
    let s := State.reset.facing (commandEdges (.revlow 5 3 false))
    s.ph = .idle ∧ s.inputs = HostInput.command (encodeCommand (.revlow 5 3 false)) :: [] ∧
      (HostInput.command (encodeCommand (.revlow 5 3 false))).rst = false ∧
      (HostInput.command (encodeCommand (.revlow 5 3 false))).cmd = some (encodeCommand (.revlow 5 3 false)) := by
  decide

theorem test_hyp_IllFormedCommandsAreTheRefusedOnes :
    (Instr.getbit 0 31 false).wellFormed = true ∧ (Instr.getbit 0 32 false).wellFormed = false := by decide

theorem test_hyp_ResetEdgeClearsEverything :
    (iterating Opcode.extract 1 1 10 4 0x199998 22 |>.facing [{ rst := true }]).inputs = { rst := true } :: [] ∧
      ({ rst := true } : HostInput).rst = true := by decide

theorem test_hyp_StepKeepsTheInvariant :
    (iterating Opcode.extract 3 625 1000 250 1 1).Inv ∧
      ∃ t, step (iterating Opcode.extract 3 625 1000 250 1 1) = .next t :=
  ⟨iterating_inv (by decide) (by decide) (by decide) (by decide) (by decide) (by decide) (by decide), _, rfl⟩

theorem test_hyp_NoEdgeStopsTheCore :
    (scanning Opcode.encode true false false 9 999999999 [HostInput.symbol .endOfString]).Inv :=
  scanning_inv (by decide) (by decide) (by decide)

theorem test_hyp_SetbitWritesOneBit :
    (0#32).toNat < 32 ∧ (31#32).toNat < 32 ∧ 32 ≤ (32#32).toNat ∧ 32 ≤ (0xFFFFFFFF#32).toNat := by decide

theorem test_hyp_GetbitReadsOneBit :
    (0#32).toNat < 32 ∧ (31#32).toNat < 32 ∧ 32 ≤ (32#32).toNat ∧ 32 ≤ (0xFFFFFFFF#32).toNat := by decide

theorem test_hyp_RevlowReversesTheLowBits :
    (0#32).toNat ≤ 32 ∧ (32#32).toNat ≤ 32 ∧ 32 < (33#32).toNat ∧ 32 < (0xFFFFFFFF#32).toNat := by decide

theorem test_hyp_RevlowTwiceKeepsTheLowBits : (0#32).toNat ≤ 32 ∧ (23#32).toNat ≤ 32 ∧ (32#32).toNat ≤ 32 := by decide

theorem test_hyp_RevlowReadsTheLowestBitAsMostSignificant : (0#32).toNat ≤ 32 ∧ (32#32).toNat ≤ 32 := by decide

/-- The neighbours of the digits are OTHER (0x2F, 0x3A), and so is every byte from 0x80 on. -/
theorem test_hyp_CharacterClasses :
    classOf 0x30 = .digit 0 ∧ classOf 0x39 = .digit 9 ∧ classOf 0x2E = .dot ∧ classOf 0x2F = .other ∧
      classOf 0x3A = .other ∧ classOf 0x2D = .other ∧ classOf 0xFF = .other := by decide

theorem test_hyp_StringCommandsStartTheScanner :
    ∃ i : Instr, i = .validate 1 2 true ∨ i = .parse 1 2 true ∨ i = .encode 1 2 true := ⟨_, .inl rfl⟩

/-- A scanning core that is shown one character: the hypotheses every clause of CharacterSymbolUpdatesTheScanner has. -/
theorem scanning_character {seen : Bool} {dcnt : BitVec 4} {num : Word} (b : Byte) (hd : dcnt.toNat ≤ 9)
    (hn : num.toNat < 10 ^ dcnt.toNat) :
    let s := scanning Opcode.parse seen false false dcnt num [HostInput.symbol (.ch b)]
    s.Inv ∧ s.ph = .scan ∧ s.inputs = HostInput.symbol (.ch b) :: [] ∧ (HostInput.symbol (.ch b)).rst = false ∧
      (HostInput.symbol (.ch b)).sym = some (encodeSymbol (.ch b)) :=
  ⟨scanning_inv (by decide) hd hn, rfl, rfl, rfl, rfl⟩

/-- The six clauses, each at the bytes and DCNT where it meets its neighbour: the hypotheses above hold of all these
states, and one step does what 41_decimal_parser.md rule R121 says. -/
theorem test_hyp_CharacterSymbolUpdatesTheScanner :
    gives (step (scanning Opcode.parse true false false 2 34 [HostInput.symbol (.ch 0x2F)])) (fun t => t.bad) = true ∧
    gives (step (scanning Opcode.parse true false false 2 34 [HostInput.symbol (.ch 0x2E)])) (fun t => t.bad) = true ∧
    gives (step (scanning Opcode.parse false false false 0 0 [HostInput.symbol (.ch 0x2E)]))
      (fun t => t.seen && !t.bad) = true ∧
    gives (step (scanning Opcode.parse false false false 0 0 [HostInput.symbol (.ch 0x39)]))
      (fun t => t.num == 0 && t.dcnt == 0) = true ∧
    gives (step (scanning Opcode.parse true false false 9 999999999 [HostInput.symbol (.ch 0x30)]))
      (fun t => t.ovf && t.dcnt == 9 && t.num == 999999999) = true ∧
    gives (step (scanning Opcode.parse true false false 8 99999999 [HostInput.symbol (.ch 0x39)]))
      (fun t => !t.ovf && t.dcnt == 9 && t.num == 999999999) = true := by decide

/-- The hypotheses of EndSymbolFinishesTheString, for each string operation and each verdict of rule R123. -/
theorem test_hyp_EndSymbolFinishesTheString :
    let s := scanning Opcode.encode true false false 9 999999999 [HostInput.symbol .endOfString]
    s.Inv ∧ s.ph = .scan ∧ s.inputs = HostInput.symbol .endOfString :: [] ∧
      (HostInput.symbol .endOfString).rst = false ∧
      (HostInput.symbol .endOfString).sym = some (encodeSymbol .endOfString) ∧ s.op = Opcode.encode ∧
      parseVerdict s = .ok :=
  ⟨scanning_inv (by decide) (by decide) (by decide), rfl, rfl, rfl, rfl, rfl, by decide⟩

theorem test_verdicts :
    parseVerdict (scanning Opcode.parse true true true 0 0 []) = .invalidInput ∧
    parseVerdict (scanning Opcode.parse false false false 0 0 []) = .invalidInput ∧
    parseVerdict (scanning Opcode.parse true false true 9 0 []) = .fracTooLong ∧
    parseVerdict (scanning Opcode.parse true false false 0 0 []) = .invalidInput ∧
    parseVerdict (scanning Opcode.parse true false false 1 0 []) = .ok := by decide

theorem allDigits_of_check {f : List Byte} (h : f.all (fun b => decide (0x30 ≤ b.toNat ∧ b.toNat ≤ 0x39)) = true) :
    AllDigits f := fun b hb => by simpa using List.all_eq_true.mp h b hb

theorem validDecimal_iff_check (str : List Byte) :
    ValidDecimal str ↔ str.all (fun b => decide ((0x30 ≤ b.toNat ∧ b.toNat ≤ 0x39) ∨ b = 0x2E#8)) = true ∧
      str.count 0x2E#8 ≤ 1 := by
  simp [ValidDecimal]

/-- "3300" is valid, "0.034.0" is not (95_test_vectors.md S1, S2). -/
theorem test_hyp_ValidateReportsTheStructuralVerdict :
    State.reset.ph = .idle ∧ ValidDecimal (bytesOf [0x33, 0x33, 0x30, 0x30]) ∧
      ¬ValidDecimal (bytesOf [0x30, 0x2E, 0x30, 0x33, 0x34, 0x2E, 0x30]) :=
  ⟨rfl, (validDecimal_iff_check _).mpr (by decide), fun h => absurd ((validDecimal_iff_check _).mp h) (by decide)⟩

/-- "5." has an empty fraction; a fraction of nine digits is the longest read, one of ten is too long; "-.5" is not
valid and "3300" has no point (95_test_vectors.md section 2.2). -/
theorem test_hyp_ParseReportsThePair :
    State.reset.ph = .idle ∧ AllDigits (bytesOf [0x35]) ∧ AllDigits [] ∧
      AllDigits (bytesOf [0x39, 0x39, 0x39, 0x39, 0x39, 0x39, 0x39, 0x39, 0x39]) ∧
      AllDigits (bytesOf [0x30, 0x30, 0x30, 0x30, 0x30, 0x30, 0x30, 0x30, 0x30, 0x31]) ∧
      0x2E#8 ∉ bytesOf [0x33, 0x33, 0x30, 0x30] ∧ ¬ValidDecimal (bytesOf [0x2D, 0x2E, 0x35]) :=
  ⟨rfl, allDigits_of_check (by decide), allDigits_of_check (by decide), allDigits_of_check (by decide),
    allDigits_of_check (by decide), by decide, fun h => absurd ((validDecimal_iff_check _).mp h) (by decide)⟩

theorem test_parse_pair : parseFraction (bytesOf [0x30, 0x2E, 0x30, 0x31, 0x35, 0x30]) = (4, 150) := by decide

theorem test_hyp_LookupReadsThePowerOfFive :
    (1 ≤ (1#32).toNat ∧ (1#32).toNat ≤ 23) ∧ (1 ≤ (23#32).toNat ∧ (23#32).toNat ≤ 23) ∧
      ((0#32).toNat = 0 ∨ 24 ≤ (0#32).toNat) ∧ ((24#32).toNat = 0 ∨ 24 ≤ (24#32).toNat) := by decide

theorem test_hyp_LookupIsExact :
    ∃ t, exec (.lookup 23 0 false) State.reset = .next t ∧ t.code = .ok := ⟨_, rfl, by decide⟩

theorem test_hyp_ExtractChecksThePairAndStarts :
    ((9#32).toNat ≤ 9 ∧ (999999999#32).toNat < 10 ^ (9#32).toNat) ∧ ((0#32).toNat ≤ 9 ∧ (0#32).toNat < 10 ^ (0#32).toNat) ∧
      9 < (10#32).toNat ∧ 10 ^ (1#32).toNat ≤ (10#32).toNat ∧ 10 ^ (0#32).toNat ≤ (1#32).toNat := by decide

/-- The three kinds of pass: one that goes on, one that leaves no remainder, and the one at the cap. -/
theorem test_hyp_IterationDoublesAndRecordsOneDigit :
    (iterating Opcode.extract 3 625 1000 250 1 1).Inv ∧ (iterating Opcode.extract 3 625 1000 500 1 2).Inv ∧
      (iterating Opcode.encode 1 1 10 4 0x199998 22).Inv ∧
      doublingRem 1000 250 ≠ 0 ∧ (1#5).toNat ≠ 22 ∧ doublingRem 1000 500 = 0 ∧ doublingRem 10 4 = 8 ∧
      (22#5).toNat = 22 ∧
      ∀ e rest, (iterating Opcode.encode 1 1 10 4 0x199998 22).inputs = e :: rest → e.rst = false :=
  ⟨iterating_inv (by decide) (by decide) (by decide) (by decide) (by decide) (by decide) (by decide),
    iterating_inv (by decide) (by decide) (by decide) (by decide) (by decide) (by decide) (by decide),
    iterating_inv (by decide) (by decide) (by decide) (by decide) (by decide) (by decide) (by decide),
    by decide, by decide, by decide, by decide, by decide, fun _ _ h => by cases h⟩

theorem test_hyp_ExtractPostsTheLoopsResult :
    State.reset.ph = .idle ∧ ((9#32).toNat ≤ 9 ∧ (999999999#32).toNat < 10 ^ (9#32).toNat) ∧ 9 < (10#32).toNat ∧
      10 ^ (1#32).toNat ≤ (10#32).toNat := by decide

theorem test_hyp_ExtractionIsTheTruncatedFraction : 0 ≤ 9 ∧ 0 < 10 ^ 0 ∧ 9 ≤ 9 ∧ 999999999 < 10 ^ 9 := by decide

/-- 0.625 is exact, 0.1 is not (95_test_vectors.md section 2.4). -/
theorem test_hyp_ExtractionIsExactIffFivesDivide :
    1 ≤ 3 ∧ 3 ≤ 9 ∧ 625 < 10 ^ 3 ∧ (extractPair 3 625).truncated = false ∧
      1 ≤ 1 ∧ 1 < 10 ^ 1 ∧ (extractPair 1 1).truncated = true := by decide +kernel

theorem test_hyp_IterationsEndWithinTheCap :
    (iterating Opcode.extract 1 1 10 1 0 0).Inv ∧ (iterating Opcode.extract 1 1 10 1 0 0).ph = .iter ∧
      ∀ e ∈ (iterating Opcode.extract 1 1 10 1 0 0).inputs, e.rst = false :=
  ⟨iterating_inv (by decide) (by decide) (by decide) (by decide) (by decide) (by decide) (by decide), rfl,
    fun _ h => by cases h⟩

theorem test_hyp_PackInsertsTheFields :
    ((255#32).toNat ≤ 255 ∧ (0x7FFFFF#32).toNat < 2 ^ 23) ∧ 255 < (256#32).toNat ∧ 2 ^ 23 ≤ (0x800000#32).toNat := by
  decide

theorem test_hyp_PackAndUnpackAreInverse : (255#32).toNat ≤ 255 ∧ (0x7FFFFF#32).toNat < 2 ^ 23 := by decide

/-- "12.5" packs, "5." and ".0000000000" (ten digits) fail (95_test_vectors.md section 2.6). -/
theorem test_hyp_EncodePacksTheTruncatedFraction :
    State.reset.ph = .idle ∧
      (AllDigits (bytesOf [0x31, 0x32]) ∧ AllDigits (bytesOf [0x35]) ∧ 1 ≤ (bytesOf [0x35]).length ∧
        (bytesOf [0x35]).length ≤ 9) ∧
      (∃ whole, AllDigits whole ∧ bytesOf [0x35, 0x2E] = decimalString whole []) ∧
      (∃ whole frac, AllDigits whole ∧ AllDigits frac ∧
        bytesOf [0x2E, 0x30, 0x30, 0x30, 0x30, 0x30, 0x30, 0x30, 0x30, 0x30, 0x30] = decimalString whole frac ∧
        9 < frac.length) :=
  ⟨rfl, ⟨allDigits_of_check (by decide), allDigits_of_check (by decide), by decide, by decide⟩,
    ⟨bytesOf [0x35], allDigits_of_check (by decide), rfl⟩,
    ⟨[], bytesOf [0x30, 0x30, 0x30, 0x30, 0x30, 0x30, 0x30, 0x30, 0x30, 0x30], allDigits_of_check (by decide),
      allDigits_of_check (by decide), rfl, by decide⟩⟩

/-- Exponents 1, 23, 0 and 24: the ends of both clauses. -/
theorem test_hyp_DecodeRendersTheProduct :
    (0x00800001#32).toNat / 2 ^ 23 % 2 ^ 8 = 1 ∧ (0x8BFFFFFF#32).toNat / 2 ^ 23 % 2 ^ 8 = 23 ∧
      (0x00000001#32).toNat / 2 ^ 23 % 2 ^ 8 = 0 ∧ (0x0C000001#32).toNat / 2 ^ 23 % 2 ^ 8 = 24 := by decide

theorem test_hyp_DecodeFillsAtMostTheBuffer :
    (∃ t, exec (.decode 0x00800001 0 false) State.reset = .next t ∧ t.code = .ok) ∧
      (0x00800001#32).toNat % 2 ^ 23 < 2 ^ ((0x00800001#32).toNat / 2 ^ 23 % 2 ^ 8) := ⟨⟨_, rfl, by decide⟩, by decide⟩

theorem test_hyp_DecodeIsExact :
    (∃ t, exec (.decode 0x01800005 0 false) State.reset = .next t ∧ t.code = .ok) ∧
      (0x01800005#32).toNat % 2 ^ 23 < 2 ^ ((0x01800005#32).toNat / 2 ^ 23 % 2 ^ 8) := ⟨⟨_, rfl, by decide⟩, by decide⟩

/-- "0.25" encodes exactly: TRUNC = 0. -/
theorem test_hyp_ExactRoundTrip :
    State.reset.ph = .idle ∧ AllDigits (bytesOf [0x30]) ∧ AllDigits (bytesOf [0x32, 0x35]) ∧
      1 ≤ (bytesOf [0x32, 0x35]).length ∧ (bytesOf [0x32, 0x35]).length ≤ 9 ∧
      (extractPair 2 (digitsValue (bytesOf [0x32, 0x35]))).truncated = false :=
  ⟨rfl, allDigits_of_check (by decide), allDigits_of_check (by decide), by decide, by decide, by decide +kernel⟩

/-- "0.1" does not: TRUNC = 1. -/
theorem test_hyp_TruncatedRoundTrip :
    State.reset.ph = .idle ∧ AllDigits (bytesOf [0x30]) ∧ AllDigits (bytesOf [0x31]) ∧
      1 ≤ (bytesOf [0x31]).length ∧ (bytesOf [0x31]).length ≤ 9 ∧
      (extractPair 1 (digitsValue (bytesOf [0x31]))).truncated = true :=
  ⟨rfl, allDigits_of_check (by decide), allDigits_of_check (by decide), by decide, by decide, by decide +kernel⟩

/-- Idle, and both verdicts: "0.5" parses, "." does not. -/
theorem test_hyp_EncodeIsParseThenExtractThenPack :
    State.reset.ph = .idle ∧ stringVerdict (bytesOf [0x30, 0x2E, 0x35]) = .ok ∧
      stringVerdict (bytesOf [0x2E]) = .invalidInput := by decide

/-- LOOKUP of the exponent of 0x01800005 is OK; that of 0x0C000001 is not. -/
theorem test_hyp_DecodeIsUnpackThenLookup :
    gives (exec (.lookup 3 0 false) State.reset) (fun t => t.code == .ok) = true ∧
      gives (exec (.lookup 24 0 false) State.reset) (fun t => t.code == .unsupportedExponent) = true := by decide

theorem test_hyp_ReservedOpcodesAreIllegal :
    ∃ i : Instr, i = .reserved0 1 2 true ∨ i = .reservedC 1 2 true ∨ i = .reservedD 1 2 true ∨
      i = .reservedE 1 2 true ∨ i = .reservedF 1 2 true := ⟨_, .inl rfl⟩

theorem test_hyp_NothingPresentedNothingChanges :
    (State.reset.facing [{}]).inputs = {} :: [] ∧ ({} : HostInput).rst = false ∧ State.reset.ph = .idle ∧
      ({} : HostInput).cmd = none ∧ (scanning Opcode.parse false false false 0 0 [{}]).ph = .scan ∧
      ({} : HostInput).sym = none := by decide

theorem test_hyp_WaitingCoreHoldsItsState :
    (∀ e ∈ [HostInput.symbol (.ch 0x35)], e.rst = false) ∧
      (State.reset.ph = .idle ∧ ∀ e ∈ [HostInput.symbol (.ch 0x35)], e.cmd = none) ∧
      ((scanning Opcode.parse true false false 1 5 []).ph = .scan ∧
        ∀ e ∈ commandEdges (.parse 0 0 false), e.sym = none) := by decide

theorem test_hyp_CommandWhileBusyIsNotAccepted :
    (scanning Opcode.parse false false false 0 0 []).ph ≠ .idle ∧
      (iterating Opcode.extract 1 1 10 1 0 0).ph ≠ .idle ∧ State.reset.ph = .idle ∧
      (HostInput.command (encodeCommand (.revlow 5 3 false))).rst = false := by decide

theorem test_hyp_UnusedOperandsOnlyReachTheLatches :
    (iterating Opcode.extract 3 625 1000 500 1 2).ph ≠ .idle ∧
      (iterating Opcode.extract 3 625 1000 500 1 2).presented.rst = false ∧
      gives (step (iterating Opcode.extract 3 625 1000 500 1 2)) (fun t => t.rx == 5) = true := by decide +kernel

theorem test_hyp_SymbolOutsideScanIsNotAccepted :
    State.reset.ph ≠ .scan ∧ (iterating Opcode.extract 1 1 10 1 0 0).ph ≠ .scan := by decide

theorem test_hyp_WithoutEndTheScanNeverEnds :
    let s := scanning Opcode.parse true false false 0 0 [HostInput.symbol (.ch 0x35), {}]
    s.Inv ∧ s.ph = .scan ∧ ∀ e ∈ s.inputs, e.rst = false ∧ ∀ w, e.sym = some w → decodeSymbol w ≠ .endOfString := by
  refine ⟨scanning_inv (by decide) (by decide) (by decide), rfl, fun e he => ?_⟩
  simp only [scanning, List.mem_cons, List.not_mem_nil, or_false] at he
  rcases he with rfl | rfl
  · refine ⟨rfl, fun w hw => ?_⟩
    cases hw
    decide
  · exact ⟨rfl, fun w hw => by cases hw⟩

/-- One step of each kind PhasesFollowTheTable speaks of, its outcome from rule R34. -/
theorem test_hyp_PhasesFollowTheTable :
    gives (step (State.reset.facing (commandEdges (.parse 0 0 false)))) (fun t => t.ph == .scan) = true ∧
    gives (step (State.reset.facing (commandEdges (.extract 9 999999999 false)))) (fun t => t.ph == .iter) = true ∧
    gives (step (scanning Opcode.parse true false false 1 5 [HostInput.symbol .endOfString])) (fun t => t.ph == .idle) =
      true ∧
    gives (step (scanning Opcode.encode true false false 1 5 [HostInput.symbol .endOfString]))
      (fun t => t.ph == .iter) = true ∧
    gives (step (iterating Opcode.extract 1 1 10 1 0 0)) (fun t => t.ph == .iter) = true := by decide

theorem test_hyp_TruncComesOnlyFromTheExtractor :
    (iterating Opcode.encode 1 1 10 4 0x199998 22).trunc = false ∧
      gives (step (iterating Opcode.encode 1 1 10 4 0x199998 22)) (fun t => t.trunc) = true := by decide +kernel

theorem test_hyp_CodesHaveTheListedCauses :
    gives (exec (.unpack 0 0 false) State.reset) (fun t => t.done) = true ∧
      (scanning Opcode.encode false false false 0 0 [HostInput.symbol .endOfString]).Inv ∧
      gives (step (scanning Opcode.encode false false false 0 0 [HostInput.symbol .endOfString]))
        (fun t => t.done && t.code == .invalidInput) = true ∧
      (iterating Opcode.extract 1 1 10 1 0 0).Inv ∧
      gives (step (iterating Opcode.extract 1 1 10 1 0 0)) (fun t => t.code == .ok) = true :=
  ⟨by decide, scanning_inv (by decide) (by decide) (by decide), by decide,
    iterating_inv (by decide) (by decide) (by decide) (by decide) (by decide) (by decide) (by decide), by decide⟩

theorem test_hyp_OutcomesDoNotDependOnHistory :
    let s₁ := State.reset.facing (commandEdges (.pack 3 5 false))
    let s₂ := { s₁ with opa := 7, num := 7, dcnt := 9, rx := 7, done := true, code := .badOperand }
    s₁.ph = .idle ∧ s₂.ph = .idle ∧ s₁.inputs = s₂.inputs ∧ (s₁.presented.rst = true ∨ s₁.presented.cmd ≠ none) := by
  decide

theorem test_hyp_BufferReadsGiveTheBytesWritten :
    (24#5).toNat ≤ 24 ∧ 25 ≤ (25#5).toNat ∧ Memory.wf [(0, 0x30), (24, 0x31)] = true ∧ 24 < 25 := by decide

theorem test_hyp_OutputPortsShowTheState :
    (scanning Opcode.parse true false false 2 34 []).Inv ∧
      (scanning Opcode.parse true false false 2 34 []).outputs.busy = true :=
  ⟨scanning_inv (by decide) (by decide) (by decide), by decide⟩

end Sys2Proof.Tests
end

section
/-! SUPPORT. Laws of the state family: what an edge does to the invariant of rule R36, to the latches and to PH, what
the last ITER pass posts, and which registers a later step can still read. -/

namespace Sys2Proof.Machine

/-! ## Reset and the invariant (rules R20, R36, R250) -/

theorem State.reset_inv : State.reset.Inv := by
  constructor <;> simp [State.reset, Memory.wf, Memory.wfFrom]

theorem State.resetRegisters_inv (s : State) : s.resetRegisters.Inv := State.reset_inv.facing s.inputs

theorem State.Inv.advanceInputs {s : State} (h : s.Inv) : s.advanceInputs.Inv := h.facing s.inputs.tail

/-- ACCEPT answers a next state, whatever the command and the state. -/
theorem exec_answers (i : Instr) (s : State) : ∃ t, exec i s = .next t := by
  rcases exec_cases i s with ⟨_, -, -, h⟩ | ⟨_, -, h⟩ | ⟨h, -⟩ | ⟨_, _, _, _, -, -, -, -, h⟩
  all_goals exact ⟨_, h⟩

/-- `extractor_init` gets `digit_count` unchanged: four bits hold every value up to 9. -/
theorem digitCount_setWidth {d : Word} (h : d.toNat ≤ 9) : (d.setWidth 4).toNat = d.toNat := by
  rw [BitVec.toNat_setWidth]; exact Nat.mod_eq_of_lt (by omega)

/-- The invariant holds when the extractor starts on a good pair, whatever held before. -/
theorem State.startIter_inv (s : State) {op d : BitVec 4} (a b : Word) (c : Bool) {n edge : Word}
    (ho : op = Opcode.extract ∨ op = Opcode.encode) (hd : d.toNat ≤ 9) (hn : n.toNat < 10 ^ d.toNat)
    (he : edge.toNat = 10 ^ d.toNat) : ((s.accept op a b c).startIter d n edge).Inv := by
  constructor <;> simp [Memory.wf, Memory.wfFrom, *]

/-- A command that ACCEPT leaves in progress meets the invariant, whatever held before. -/
theorem exec_busy_inv {i : Instr} {s t : State} (ht : exec i s = .next t) (hp : t.ph ≠ .idle) : t.Inv := by
  rcases exec_cases i s with ⟨r, -, -, hx⟩ | ⟨k, -, hx⟩ | ⟨hx, ho⟩ | ⟨d, n, c, edge, rfl, hd, hn, he, hx⟩
  all_goals
    rw [hx, Host.Outcome.next.injEq] at ht
    subst ht
  · exact absurd rfl hp
  · exact absurd rfl hp
  · exact State.startScan_inv s _ _ _ ho
  · have hd4 := digitCount_setWidth hd
    exact State.startIter_inv s _ _ _ (.inl rfl) (by omega) (by rwa [hd4]) (by rwa [hd4])

/-- ACCEPT keeps the invariant, whatever the command. -/
theorem State.Inv.exec {s t : State} (h : s.Inv) (hp : s.ph = .idle) {i : Instr} (ht : exec i s = .next t) :
    t.Inv := by
  have ha := h.accept hp i.opcode i.operands.1 i.operands.2.1 i.operands.2.2
  rcases exec_cases i s with ⟨r, hr, -, hx⟩ | ⟨k, -, hx⟩ | ⟨hx, -⟩ | ⟨d, n, c, edge, -, -, -, -, hx⟩
  all_goals
    rw [hx, Host.Outcome.next.injEq] at ht
    subst ht
  · exact ha.post rfl r hr
  · exact ha.raise (s.accept_cleared ..) k
  · exact exec_busy_inv hx (by simp)
  · exact exec_busy_inv hx (by simp)

/-- SYMBOL keeps the invariant and never faults. -/
theorem State.Inv.stepSymbol {s : State} (h : s.Inv) (hp : s.ph = .scan) (sym : Symbol) :
    ∃ t, stepSymbol sym s = .next t ∧ t.Inv := by
  cases sym with
  | ch b => exact ⟨_, rfl, h.parserUpdate hp b⟩
  | endOfString => exact h.endOfString hp

/-- From a state that meets the invariant every edge answers a state that meets it. -/
theorem State.Inv.step {s : State} (h : s.Inv) : ∃ t, step s = .next t ∧ t.Inv := by
  have ha := h.advanceInputs
  rcases step_cases s with ⟨-, hs⟩ | ⟨-, ⟨hp, w, -, hs⟩ | ⟨hp, w, -, hs⟩ | ⟨hp, hs⟩ | ⟨-, hs⟩⟩
  · exact ⟨_, hs, State.resetRegisters_inv _⟩
  · obtain ⟨t, ht⟩ := exec_answers (decodeCommand w) s.advanceInputs
    exact ⟨t, hs.trans ht, ha.exec hp ht⟩
  · rw [hs]; exact ha.stepSymbol hp _
  · rw [hs]; exact ha.stepIter hp
  · exact ⟨_, hs, ha⟩

/-! ## ACCEPT: latches and frame (rules R31, R162) -/

theorem State.accept_latched (s : State) (i : Instr) :
    (s.accept i.opcode i.operands.1 i.operands.2.1 i.operands.2.2).latched i := ⟨rfl, rfl, rfl, rfl⟩

theorem decodeCommand_encodeCommand (i : Instr) : decodeCommand (encodeCommand i) = i := by
  rw [decodeCommand, encodeCommand, CommandWord.op_build, CommandWord.a_build, CommandWord.b_build,
    CommandWord.c_build]
  cases i <;> with_unfolding_all rfl

/-! ## PH (rules R22, R34) -/

theorem Instr.eq_of_string_opcode {i : Instr}
    (h : i.opcode = Opcode.validate ∨ i.opcode = Opcode.parse ∨ i.opcode = Opcode.encode) :
    ∃ a b c, i = .validate a b c ∨ i = .parse a b c ∨ i = .encode a b c := by
  cases i with
  | validate a b c => exact ⟨a, b, c, .inl rfl⟩
  | parse a b c => exact ⟨a, b, c, .inr (.inl rfl)⟩
  | encode a b c => exact ⟨a, b, c, .inr (.inr rfl)⟩
  | _ => exact absurd h (by simp only [Instr.opcode]; decide)

/-- ACCEPT completes the command, starts the scan of a string command, or starts the extractor on a good pair. -/
theorem exec_ph {i : Instr} {s t : State} (ht : exec i s = .next t) :
    t.ph = .idle ∨
    (t.ph = .scan ∧ ∃ a b c, i = .validate a b c ∨ i = .parse a b c ∨ i = .encode a b c) ∨
    (t.ph = .iter ∧ ∃ d n c, i = .extract d n c ∧ d.toNat ≤ 9 ∧ n.toNat < 10 ^ d.toNat) := by
  rcases exec_cases i s with ⟨r, -, -, hx⟩ | ⟨k, -, hx⟩ | ⟨hx, ho⟩ | ⟨d, n, c, edge, hi, hd, hn, -, hx⟩
  all_goals
    rw [hx, Host.Outcome.next.injEq] at ht
    subst ht
  · exact .inl rfl
  · exact .inl rfl
  · exact .inr (.inl ⟨rfl, Instr.eq_of_string_opcode ho⟩)
  · exact .inr (.inr ⟨rfl, d, n, c, hi, hd, hn⟩)

theorem parseVerdict_eq_ok_iff (s : State) :
    parseVerdict s = .ok ↔ s.bad = false ∧ s.seen = true ∧ s.ovf = false ∧ s.dcnt ≠ 0 := by
  unfold parseVerdict
  cases s.bad <;> cases s.seen <;> cases s.ovf <;> simp

@[simp] theorem State.complete_ph (s : State) (k : Code) (r : Result) : (s.complete k r).ph = .idle := by
  unfold State.complete; split <;> rfl

@[simp] theorem parserUpdate_ph (b : Byte) (s : State) : (parserUpdate b s).ph = s.ph := by
  rw [parserUpdate_frame]

/-- END completes the command, or starts the extractor on an OK verdict of ENCODE. -/
theorem endOfString_ph {s t : State} (h : endOfString s = .next t) :
    t.ph = .idle ∨ t.ph = .iter ∧ s.op = Opcode.encode ∧ parseVerdict s = .ok := by
  unfold endOfString at h
  split at h
  · cases h; exact .inl (State.complete_ph ..)
  split at h
  · cases h; exact .inl (State.complete_ph ..)
  split at h
  · rename_i ho
    unfold endOfEncodeString at h
    split at h
    · rename_i hv
      split at h
      · cases h; exact .inr ⟨rfl, ho, hv⟩
      · cases h
    · cases h; exact .inl rfl
  · cases h

/-- ITER completes the command or stays in its phase. -/
theorem stepIter_ph {s t : State} (h : stepIter s = .next t) : t.ph = .idle ∨ t.ph = s.ph := by
  cases hl : lastIteration s.pos.toNat (doublingRem s.edge.toNat s.rem.toNat) with
  | false => rw [stepIter_more hl] at h; cases h; exact .inr rfl
  | true =>
    simp only [stepIter, hl, if_true] at h
    split at h
    · cases h; exact .inl rfl
    split at h
    · cases h; exact .inl rfl
    · cases h

/-! ## One ITER step (rule R33) -/

/-- No reset at the next edge, said through the schedule. -/
theorem State.presented_rst_of_head {s : State} (h : ∀ e rest, s.inputs = e :: rest → e.rst = false) :
    s.presented.rst = false := by
  unfold State.presented
  cases hi : s.inputs with
  | nil => rfl
  | cons e rest => exact h e rest hi

theorem finishIterations_extract {s : State} (ho : s.op = Opcode.extract) (x : Extraction) :
    finishIterations s x =
      s.post { rx := x.significand, ry := BitVec.ofNat 32 x.exponent, trunc := x.truncated } := by
  rw [finishIterations, if_pos ho, finishExtract, State.complete_ok]

/-- ENCODE's word as a number: an extraction's exponent and significand fit their fields. -/
theorem finishIterations_encode {s : State} (ho : s.op = Opcode.encode) {x : Extraction} (he : x.exponent < 2 ^ 8)
    (hg : x.significand.toNat < 2 ^ 23) :
    finishIterations s x =
      s.post { rx := BitVec.ofNat 32 (x.exponent * 2 ^ 23 + x.significand.toNat), trunc := x.truncated } := by
  have hp : packFields false (BitVec.ofNat 8 x.exponent) (x.significand.setWidth 23) =
      BitVec.ofNat 32 (x.exponent * 2 ^ 23 + x.significand.toNat) := by
    apply BitVec.eq_of_toNat_eq
    rw [packFields_toNat, ofNat_toNat_of_lt he, BitVec.toNat_setWidth, Nat.mod_eq_of_lt hg,
      ofNat_toNat_of_lt (by omega)]
    simp
  rw [finishIterations, if_neg (by rw [ho]; decide), finishEncode, State.complete_ok, hp]

/-- The last pass posts a result and changes nothing else. -/
theorem finishIterations_eq_post (s : State) (x : Extraction) : ∃ r, finishIterations s x = s.post r := by
  unfold finishIterations
  split
  · exact ⟨_, rfl⟩
  · exact ⟨_, rfl⟩

theorem pos_succ {p : BitVec 5} (h : p.toNat ≤ 22) : (p + 1).toNat = p.toNat + 1 := by
  rw [BitVec.toNat_add]; exact Nat.mod_eq_of_lt (by simp; omega)

/-! ## What PH lets a later step read (rule R37) -/

/-- EDGE, REM, ACC and POS set to 0. -/
def State.clearExtractor (s : State) : State := { s with edge := 0, rem := 0, acc := 0, pos := 0 }

/-- SEEN, BAD and OVF set to 0. -/
def State.clearFlags (s : State) : State := { s with seen := false, bad := false, ovf := false }

/-- DCNT and NUM set to 0. -/
def State.clearPair (s : State) : State := { s with dcnt := 0, num := 0 }

/-- `s` without the working registers that are written before the next step that reads them: in IDLE all of them, in
SCAN the extractor's, in ITER the parser's flags (DCNT and NUM stay there, though ITER does not read them). -/
def State.live (s : State) : State :=
  match s.ph with
  | .idle => s.clearFlags.clearPair.clearExtractor
  | .scan => s.clearExtractor
  | .iter => s.clearFlags

/-- An outcome whose state is seen through `State.live`. -/
def liveOutcome : Host.Outcome State Fault Refusal → Host.Outcome State Fault Refusal
  | .next t => .next t.live
  | .fault r => .fault r
  | .refused r => .refused r

@[simp] theorem liveOutcome_next (t : State) : liveOutcome (.next t) = .next t.live := rfl

@[simp] theorem State.live_ph (s : State) : s.live.ph = s.ph := by
  unfold State.live; split <;> rfl

@[simp] theorem State.live_inputs (s : State) : s.live.inputs = s.inputs := by
  unfold State.live; split <;> rfl

@[simp] theorem State.live_presented (s : State) : s.live.presented = s.presented := by
  simp only [State.presented, State.live_inputs]

theorem State.live_outputs (s : State) : s.live.outputs = s.outputs := by
  unfold State.live; split <;> rfl

theorem State.live_obData (s : State) (i : BitVec 5) : s.live.obData i = s.obData i := by
  unfold State.live; split <;> rfl

theorem State.live_of_scan {s : State} (hp : s.ph = .scan) : s.live = s.clearExtractor := by
  rw [State.live, hp]

theorem State.live_of_iter {s : State} (hp : s.ph = .iter) : s.live = s.clearFlags := by
  rw [State.live, hp]

theorem State.advanceInputs_live (s : State) : s.live.advanceInputs = s.advanceInputs.live := by
  unfold State.live; rw [State.advanceInputs_ph]; split <;> rfl

theorem State.live_live (s : State) : s.live.live = s.live := by
  rw [State.live, State.live_ph, State.live]; split <;> rfl

/-! ### ACCEPT -/

/-- ACCEPT reads no register: what it leaves live depends on the command and the host's schedule alone. -/
theorem exec_live {s s' : State} (i : Instr) (h : s.inputs = s'.inputs) :
    liveOutcome (exec i s) = liveOutcome (exec i s') := by
  obtain ⟨⟩ := s
  obtain ⟨⟩ := s'
  cases h
  cases i with
  | setbit | getbit | revlow | pack =>
    simp only [exec, execSetbit, execGetbit, execRevlow, execPack]
    split <;> rfl
  | lookup | extract | decode =>
    simp only [exec, execLookup, execExtract, execDecode]
    split <;> rfl
  | _ => rfl

/-! ### SYMBOL and ITER -/

theorem parserUpdate_clearExtractor (b : Byte) (s : State) :
    parserUpdate b s.clearExtractor = (parserUpdate b s).clearExtractor := by
  have hs : s.clearExtractor.seen = s.seen := rfl
  have hd : s.clearExtractor.dcnt = s.dcnt := rfl
  unfold parserUpdate
  rw [hs, hd]
  cases classOf b with
  | other => rfl
  | dot => cases s.seen <;> rfl
  | digit v =>
    dsimp only
    split
    · split <;> rfl
    · rfl

/-- A completion leaves IDLE, where no working register is live. -/
theorem State.complete_clearExtractor_live (s : State) (k : Code) (r : Result) :
    (s.clearExtractor.complete k r).live = (s.complete k r).live := by
  unfold State.complete; split <;> rfl

/-- SYMBOL in SCAN reads no register of the extractor. -/
theorem stepSymbol_live {s : State} (hp : s.ph = .scan) (sym : Symbol) :
    liveOutcome (stepSymbol sym s.live) = liveOutcome (stepSymbol sym s) := by
  rw [State.live_of_scan hp]
  have ho : s.clearExtractor.op = s.op := rfl
  have hv : parseVerdict s.clearExtractor = parseVerdict s := rfl
  have hd : s.clearExtractor.dcnt = s.dcnt := rfl
  cases sym with
  | ch b =>
    have hph : (parserUpdate b s).ph = .scan := by rw [parserUpdate_ph, hp]
    rw [stepSymbol, stepSymbol, parserUpdate_clearExtractor, ← State.live_of_scan hph, liveOutcome_next,
      liveOutcome_next, State.live_live]
  | endOfString =>
    rw [stepSymbol, stepSymbol, endOfString, endOfString, ho]
    split
    · rfl
    split
    · exact congrArg Host.Outcome.next (State.complete_clearExtractor_live ..)
    split
    · rw [endOfEncodeString, endOfEncodeString, hv, hd]
      split
      · cases pow10 s.dcnt.toNat <;> rfl
      · rfl
    · rfl

/-- ITER reads no flag of the parser. -/
theorem stepIter_live {s : State} (hp : s.ph = .iter) :
    liveOutcome (stepIter s.live) = liveOutcome (stepIter s) := by
  rw [State.live_of_iter hp]
  have ho : s.clearFlags.op = s.op := rfl
  cases hl : lastIteration s.pos.toNat (doublingRem s.edge.toNat s.rem.toNat) with
  | false =>
    rw [stepIter_more hl, stepIter_more (s := s.clearFlags) hl, liveOutcome_next, liveOutcome_next,
      State.live_of_iter (s := s.recordDigit.nextPosition) hp,
      State.live_of_iter (s := s.clearFlags.recordDigit.nextPosition) hp]
    rfl
  | true =>
    have hl' : lastIteration s.clearFlags.pos.toNat
        (doublingRem s.clearFlags.edge.toNat s.clearFlags.rem.toNat) = true := hl
    simp only [stepIter, hl, hl', ho, if_true]
    split
    · rfl
    split <;> rfl

/-! ### Runs -/

/-- One edge reads live registers only. -/
theorem step_live (s : State) : liveOutcome (step s.live) = liveOutcome (step s) := by
  have hi : s.live.advanceInputs.inputs = s.advanceInputs.inputs := by simp
  rcases step_cases s with ⟨hr, hs⟩ | ⟨hr, ⟨hp, w, hw, hs⟩ | ⟨hp, w, hw, hs⟩ | ⟨hp, hs⟩ | ⟨hp, hs⟩⟩
  all_goals rw [← State.live_presented] at hr
  · rw [hs, step_of_rst hr, State.resetRegisters, State.resetRegisters, hi]
  all_goals rw [hs]
  · rw [step_idle_command hr (by simpa using hp) (by simpa using hw)]
    exact exec_live _ hi
  · rw [step_scan_symbol hr (by simpa using hp) (by simpa using hw), State.advanceInputs_live]
    exact stepSymbol_live (s := s.advanceInputs) hp _
  · rw [step_iter hr (by simpa using hp), State.advanceInputs_live]
    exact stepIter_live (s := s.advanceInputs) hp
  · have hquiet : step s.live = .next s.live.advanceInputs := by
      rcases hp with ⟨hp, hc⟩ | ⟨hp, hc⟩
      · exact step_idle_quiet hr (by simpa using hp) (by simpa using hc)
      · exact step_scan_quiet hr (by simpa using hp) (by simpa using hc)
    rw [hquiet, State.advanceInputs_live, liveOutcome_next, State.live_live, liveOutcome_next]

/-- Every edge answers a next state, and busy states keep meeting the invariant, whatever an idle core's registers
hold: the next ACCEPT or reset writes what a later step reads. -/
theorem step_keeps_busy_inv {s : State} (h : s.ph ≠ .idle → s.Inv) :
    ∃ t, step s = .next t ∧ (t.ph ≠ .idle → t.Inv) := by
  by_cases hp : s.ph = .idle
  · rcases step_cases s with ⟨-, hs⟩ | ⟨-, ⟨-, w, -, hs⟩ | ⟨hp', -⟩ | ⟨hp', -⟩ | ⟨-, hs⟩⟩
    · exact ⟨_, hs, fun _ => State.resetRegisters_inv _⟩
    · obtain ⟨t, ht⟩ := exec_answers (decodeCommand w) s.advanceInputs
      exact ⟨t, hs.trans ht, exec_busy_inv ht⟩
    · rw [hp] at hp'; cases hp'
    · rw [hp] at hp'; cases hp'
    · exact ⟨_, hs, fun hb => absurd hp hb⟩
  · obtain ⟨t, ht, hi⟩ := (h hp).step
    exact ⟨t, ht, fun _ => hi⟩

theorem live_of_step_live {s₁ s₂ t₁ t₂ : State} (h : liveOutcome (step s₁) = liveOutcome (step s₂))
    (h₁ : step s₁ = .next t₁) (h₂ : step s₂ = .next t₂) : t₁.live = t₂.live := by
  rwa [h₁, h₂, liveOutcome_next, liveOutcome_next, Host.Outcome.next.injEq] at h

/-- Two runs from states with the same live registers have the same live registers after any number of edges. -/
theorem steps_live (n : Nat) {s₁ s₂ : State} (h₁ : s₁.ph ≠ .idle → s₁.Inv) (h₂ : s₂.ph ≠ .idle → s₂.Inv)
    (h : s₁.live = s₂.live) :
    ∃ t₁ t₂, steps n s₁ = .next t₁ ∧ steps n s₂ = .next t₂ ∧ t₁.live = t₂.live := by
  induction n generalizing s₁ s₂ with
  | zero => exact ⟨s₁, s₂, rfl, rfl, h⟩
  | succ n ih =>
    obtain ⟨u₁, hu₁, hb₁⟩ := step_keeps_busy_inv h₁
    obtain ⟨u₂, hu₂, hb₂⟩ := step_keeps_busy_inv h₂
    have hu : u₁.live = u₂.live := live_of_step_live (by rw [← step_live, h, step_live]) hu₁ hu₂
    rw [steps_succ n hu₁, steps_succ n hu₂]
    exact ih hb₁ hb₂ hu

/-- A reset or an ACCEPT forgets what the registers of an idle core held. -/
theorem step_live_of_idle {s₁ s₂ : State} (h₁ : s₁.ph = .idle) (h₂ : s₂.ph = .idle) (hi : s₁.inputs = s₂.inputs)
    (hc : s₁.presented.rst = true ∨ s₁.presented.cmd ≠ none) :
    liveOutcome (step s₁) = liveOutcome (step s₂) := by
  have hp : s₁.presented = s₂.presented := by rw [State.presented, State.presented, hi]
  have ha : s₁.advanceInputs.inputs = s₂.advanceInputs.inputs := by
    rw [State.advanceInputs_inputs, State.advanceInputs_inputs, hi]
  cases hr : s₁.presented.rst with
  | true =>
    rw [step_of_rst hr, step_of_rst (hp ▸ hr), State.resetRegisters, State.resetRegisters, ha]
  | false =>
    obtain ⟨w, hw⟩ := Option.ne_none_iff_exists'.mp (hc.resolve_left (by simp [hr]))
    rw [step_idle_command hr h₁ hw, step_idle_command (hp ▸ hr) h₂ (hp ▸ hw)]
    exact exec_live _ ha

end Sys2Proof.Machine
end

section
/-! The obligations of the state family. -/

namespace Sys2Proof.Machine

/-- Settles O12: each kind of edge of `step_cases` keeps the invariant. -/
theorem stepKeepsTheInvariant : Obligations.StepKeepsTheInvariant := by
  intro s t h ht
  obtain ⟨u, hu, hi⟩ := h.step
  rw [ht, Host.Outcome.next.injEq] at hu
  exact hu ▸ hi

/-- Settles O9: by what ACCEPT can do, a completion leaves the working registers, a scan start the extractor's. -/
theorem acceptLatchesEveryCommand : Obligations.AcceptLatchesEveryCommand := by
  intro i s
  have hl := s.accept_latched i
  have hw := s.accept_sameWorking i.opcode i.operands.1 i.operands.2.1 i.operands.2.2
  rcases exec_cases i s with ⟨r, -, -, hx⟩ | ⟨k, -, hx⟩ | ⟨hx, -⟩ | ⟨d, n, c, edge, -, -, -, -, hx⟩
  · exact ⟨_, hx, hl, rfl, fun _ => ⟨rfl, rfl, rfl, rfl⟩, fun _ => ⟨hw, rfl⟩⟩
  · exact ⟨_, hx, hl, rfl, fun _ => ⟨rfl, rfl, rfl, rfl⟩, fun _ => ⟨hw, rfl⟩⟩
  · exact ⟨_, hx, hl, rfl, fun _ => ⟨rfl, rfl, rfl, rfl⟩, by simp⟩
  · exact ⟨_, hx, hl, rfl, by simp, by simp⟩

/-- Settles O27: the pair is in range or `extractEdge` refuses it. -/
theorem extractChecksThePairAndStarts : Obligations.ExtractChecksThePairAndStarts := by
  refine fun d n c s => ⟨fun ⟨hd, hn⟩ => ?_, fun h => ?_⟩
  · obtain ⟨edge, he, hx⟩ := execExtract_of_lt d n c s hd hn
    exact ⟨_, hx, s.accept_latched (.extract d n c), rfl, s.accept_cleared Opcode.extract d n c, rfl, rfl, rfl, rfl,
      digitCount_setWidth hd, rfl, he, rfl, rfl, rfl⟩
  · exact ⟨_, execExtract_of_ge d n c s h, s.accept_latched (.extract d n c), rfl,
      s.accept_sameWorking Opcode.extract d n c, s.accept_raise_failed Opcode.extract d n c .badOperand⟩

/-- Settles O28: `stepIter_more` for a pass that goes on, `stepIter_last` for the completing one. -/
theorem iterationDoublesAndRecordsOneDigit : Obligations.IterationDoublesAndRecordsOneDigit := by
  intro s d2 r bit acc h hp hrst hd2 hbit hr hacc
  subst hd2
  obtain rfl : bit = doublingDigit s.edge.toNat s.rem.toNat := hbit
  obtain rfl : r = doublingRem s.edge.toNat s.rem.toNat := by
    rw [hr]; simp only [doublingDigit, doublingRem, decide_eq_true_eq]
  subst hacc
  have hstep := step_iter (State.presented_rst_of_head hrst) hp
  have hlt := doublingRem_lt (h.iter_rem hp)
  have hrem : s.advanceInputs.recordDigit.rem.toNat = doublingRem s.edge.toNat s.rem.toNat :=
    doublingRem_narrow (s := s.advanceInputs) (h.iter_rem hp)
  have hc : s.cleared := h.cleared (by simp [hp])
  have hpos := h.iter_pos hp
  cases hl : lastIteration s.pos.toNat (doublingRem s.edge.toNat s.rem.toNat) with
  | false =>
    have hgo : ¬(doublingRem s.edge.toNat s.rem.toNat = 0 ∨ s.pos.toNat = 22) := by
      rw [← lastIteration_iff, hl]; simp
    exact ⟨_, hstep.trans (stepIter_more hl), rfl, ⟨rfl, rfl, rfl, rfl⟩, rfl, hrem, hlt, rfl, rfl, rfl, rfl, rfl, rfl,
      fun _ => ⟨hp, pos_succ hpos, hc⟩, fun hd => absurd hd hgo⟩
  | true =>
    have hend := (lastIteration_iff _ _).mp hl
    have hg := reverseLowBits_toNat_lt s.advanceInputs.recordDigit.acc (s.pos.toNat + 1)
    have hg23 : 2 ^ (s.pos.toNat + 1) ≤ 2 ^ 23 := Nat.pow_le_pow_right (by omega) (by omega)
    obtain ⟨-, -, -, -, -, -, -, -, hz⟩ := hc
    have hposted : ∀ r : Result, r.bytes = [] → (s.advanceInputs.recordDigit.post r).posted r := fun r hb =>
      State.post_posted _ r h.obuf_wf hz (by simp [hb])
    obtain ⟨r, hpost⟩ := finishIterations_eq_post s.advanceInputs.recordDigit (extractionAt
      (doublingRem s.edge.toNat s.rem.toNat) s.advanceInputs.recordDigit.acc s.pos.toNat)
    have hlast := hstep.trans (stepIter_last (s := s.advanceInputs) (h.iter_op hp) hl)
    refine ⟨_, hlast.trans (congrArg _ hpost), rfl, ⟨rfl, rfl, rfl, rfl⟩, rfl, hrem, hlt, rfl, rfl, rfl, rfl, rfl, rfl,
      fun hd => by omega, fun _ => ⟨rfl, hg, fun ho => ?_, fun ho => ?_⟩⟩
    · rw [← hpost, finishIterations_extract (s := s.advanceInputs.recordDigit) ho]
      exact hposted _ rfl
    · rw [← hpost, finishIterations_encode (s := s.advanceInputs.recordDigit) ho (show s.pos.toNat + 1 < 2 ^ 8 by omega)
        (show (reverseLowBits _ _).toNat < 2 ^ 23 from lt_of_lt_of_le hg hg23)]
      exact hposted _ rfl

/-- Settles O51: by the kinds of edge of `step_cases`, the two edges without a step keep PH. -/
theorem phasesFollowTheTable : Obligations.PhasesFollowTheTable := by
  intro s t hr ht
  rcases step_cases s with ⟨hr', -⟩ | ⟨-, ⟨hp, w, hw, hs⟩ | ⟨hp, w, hw, hs⟩ | ⟨hp, hs⟩ | ⟨hp, hs⟩⟩
  · rw [hr] at hr'; cases hr'
  all_goals rw [hs] at ht
  · refine ⟨fun _ h => ?_, fun _ h => ?_, by simp [hp], by simp [hp], by simp [hp]⟩
    · rcases exec_ph ht with h' | ⟨-, a, b, c, hi⟩ | ⟨h', -⟩
      · rw [h'] at h; cases h
      · exact ⟨w, a, b, c, hw, hi⟩
      · rw [h'] at h; cases h
    · rcases exec_ph ht with h' | ⟨h', -⟩ | ⟨-, d, n, c, hi, hd, hn⟩
      · rw [h'] at h; cases h
      · rw [h'] at h; cases h
      · exact ⟨w, d, n, c, hw, hi, hd, hn⟩
  · cases hsym : decodeSymbol w with
    | ch b =>
      rw [hsym, stepSymbol, Host.Outcome.next.injEq] at ht
      subst ht
      simp [hp]
    | endOfString =>
      rw [hsym] at ht
      refine ⟨by simp [hp], by simp [hp], fun _ _ => ⟨w, hw, hsym⟩, fun _ h => ?_, by simp [hp]⟩
      rcases endOfString_ph ht with hi | ⟨-, ho, hv⟩
      · rw [hi] at h; cases h
      · exact ⟨ho, (parseVerdict_eq_ok_iff _).mp hv⟩
  · refine ⟨by simp [hp], by simp [hp], by simp [hp], by simp [hp], fun _ => ?_⟩
    rcases stepIter_ph ht with h | h <;> simp [h, hp]
  · cases ht
    rcases hp with ⟨hp, -⟩ | ⟨hp, -⟩ <;> simp [hp]

/-- Settles O55: after the first edge the two runs have the same live registers, and the ports show no other. -/
theorem outcomesDoNotDependOnHistory : Obligations.OutcomesDoNotDependOnHistory := by
  intro s₁ s₂ h₁ h₂ hi hc n
  obtain ⟨u₁, hu₁, hb₁⟩ := step_keeps_busy_inv (fun hb => absurd h₁ hb)
  obtain ⟨u₂, hu₂, hb₂⟩ := step_keeps_busy_inv (fun hb => absurd h₂ hb)
  obtain ⟨t₁, t₂, ht₁, ht₂, ht⟩ :=
    steps_live n hb₁ hb₂ (live_of_step_live (step_live_of_idle h₁ h₂ hi hc) hu₁ hu₂)
  refine ⟨t₁, t₂, (steps_succ n hu₁).trans ht₁, (steps_succ n hu₂).trans ht₂, ?_, fun i => ?_⟩
  · rw [← t₁.live_outputs, ht, t₂.live_outputs]
  · rw [← t₁.live_obData, ht, t₂.live_obData]

/-- Settles O7: the port's word decodes to the command it encodes. -/
theorem stepRunsThePresentedCommand : Obligations.StepRunsThePresentedCommand := by
  intro s e rest i hp hi hr hc
  have he := s.presented_cons hi
  rw [step_idle_command (by rwa [he]) hp (by rwa [he]), decodeCommand_encodeCommand, State.advanceInputs, hi,
    List.tail_cons]

/-- Settles O11: every register is 0 and PH is IDLE. -/
theorem resetStateMeetsTheInvariant : Obligations.ResetStateMeetsTheInvariant := State.reset_inv

/-- Settles O46: such an edge is none of the steps. -/
theorem nothingPresentedNothingChanges : Obligations.NothingPresentedNothingChanges := by
  intro s e rest hi hr
  have he := s.presented_cons hi
  have ha : s.advanceInputs = { s with inputs := rest } := by rw [State.advanceInputs, hi, List.tail_cons]
  rw [← he] at hr ⊢
  rw [← ha]
  exact ⟨step_idle_quiet hr, step_scan_quiet hr⟩

end Sys2Proof.Machine
end

section
/-! The family of section 3 of `20_memory.md`: what the read index shows, and reading and writing one byte of OBUF. -/

namespace Sys2Proof.Machine

theorem State.obData_of_le (s : State) {i : BitVec 5} (hi : i.toNat ≤ 24) : s.obData i = s.obuf.read i.toNat :=
  if_pos (Nat.lt_succ_of_le hi)

theorem State.obData_of_ge (s : State) {i : BitVec 5} (hi : 25 ≤ i.toNat) : s.obData i = 0x00#8 :=
  if_neg (Nat.not_lt_of_le hi)

/-- Settles O56: a read depends on which side of the buffer's end the index is; a write keeps the canonical form and
is read back by induction along the listed bytes (`Memory.wfFrom_write`, `Memory.read_writeFrom`). -/
theorem bufferReadsGiveTheBytesWritten : Obligations.BufferReadsGiveTheBytesWritten :=
  ⟨fun s _ => ⟨s.obData_of_le, s.obData_of_ge⟩,
    fun _ i j b hm hi => ⟨Memory.wfFrom_write b hm i.zero_le hi, Memory.read_writeFrom b hm j⟩⟩

end Sys2Proof.Machine
end

section
/-! SUPPORT. Laws of the encoding family: the encoder inverts the decoder, which commands ACCEPT refuses, that only
ACCEPT reads the operand latches, and whole runs of PARSE, ENCODE and EXTRACT. -/

namespace Sys2Proof.Machine

/-! ## Command words (rules R70, R72) -/

theorem encodeCommand_decodeCommand (w : CommandWord) : encodeCommand (decodeCommand w) = w := by
  rw [encodeCommand, decodeCommand, decodeFields_opcode, decodeFields_operands, CommandWord.build_fields]

theorem decodeNat_encodeCommand (i : Instr) : decodeNat (encodeCommand i).toNat = .ok i := by
  rw [decodeNat, if_pos (encodeCommand i).isLt, BitVec.ofNat_toNat, BitVec.setWidth_eq, decodeCommand_encodeCommand]

/-! ## LOOKUP and DECODE by the ROM's entry (rules R52, R152, R195) -/

theorem execLookup_of_some {e b : Word} {c : Bool} {s : State} {entry : RomEntry} (h : romRead e = some entry) :
    execLookup e b c s = .next ((s.accept Opcode.lookup e b c).post
      { rw := entry.decimalNumerator, rx := entry.decimalDigits }) := by
  simp [execLookup, h]

theorem execLookup_of_none {e b : Word} {c : Bool} {s : State} (h : romRead e = none) :
    execLookup e b c s = .next ((s.accept Opcode.lookup e b c).raise .unsupportedExponent) := by
  simp [execLookup, h]

theorem decodeString_of_romRead_some {word : Word} {entry : RomEntry} (h : romRead (exponentOf word) = some entry) :
    decodeString word = some (fractionString entry.decimalDigits.toNat
      (entry.decimalNumerator.toNat * (significandOf word).toNat)) := by
  simp only [decodeString, h, padDigits, decimalNumeral_eq, fractionString]

theorem decodeString_of_romRead_none {word : Word} (h : romRead (exponentOf word) = none) :
    decodeString word = none := by
  simp only [decodeString, h]

/-! ## Which commands are refused (rules R71, R73, R226, R227) -/

theorem setbit_wellFormed_iff (w n : Word) (v : Bool) : (Instr.setbit w n v).wellFormed = true ↔ n.toNat < 32 := by
  simp [Instr.wellFormed, Nat.lt_succ_iff]

theorem getbit_wellFormed_iff (w n : Word) (c : Bool) : (Instr.getbit w n c).wellFormed = true ↔ n.toNat < 32 := by
  simp [Instr.wellFormed, Nat.lt_succ_iff]

theorem revlow_wellFormed_iff (w n : Word) (c : Bool) : (Instr.revlow w n c).wellFormed = true ↔ n.toNat ≤ 32 := by
  simp [Instr.wellFormed]

theorem extract_wellFormed_iff (d n : Word) (c : Bool) :
    (Instr.extract d n c).wellFormed = true ↔ d.toNat ≤ 9 ∧ n.toNat < 10 ^ d.toNat := by
  simp [Instr.wellFormed]

theorem pack_wellFormed_iff (e g : Word) (sign : Bool) :
    (Instr.pack e g sign).wellFormed = true ↔ e.toNat ≤ 255 ∧ g.toNat < 2 ^ 23 := by
  simp [Instr.wellFormed, Nat.lt_succ_iff, Config.expWidth, Config.sigWidth]

/-- ACCEPT of a well-formed command completes it, misses the ROM, or leaves it in progress with CODE = OK. -/
theorem exec_code_of_wellFormed {i : Instr} (hi : i.wellFormed = true) (s : State) :
    ∃ t, exec i s = .next t ∧ (t.code = .ok ∨ t.code = .unsupportedExponent) := by
  cases i with
  | setbit w n v => exact ⟨_, execSetbit_of_lt w n v s ((setbit_wellFormed_iff w n v).mp hi), .inl rfl⟩
  | getbit w n c => exact ⟨_, execGetbit_of_lt w n c s ((getbit_wellFormed_iff w n c).mp hi), .inl rfl⟩
  | revlow w n c => exact ⟨_, execRevlow_of_le w n c s ((revlow_wellFormed_iff w n c).mp hi), .inl rfl⟩
  | extract d n c =>
    obtain ⟨hd, hn⟩ := (extract_wellFormed_iff d n c).mp hi
    obtain ⟨edge, -, hx⟩ := execExtract_of_lt d n c s hd hn
    exact ⟨_, hx, .inl rfl⟩
  | pack e g sign =>
    obtain ⟨he, hg⟩ := (pack_wellFormed_iff e g sign).mp hi
    exact ⟨_, execPack_of_lt e g sign s he hg, .inl rfl⟩
  | lookup e b c =>
    cases h : romRead e with
    | some entry => exact ⟨_, execLookup_of_some h, .inl rfl⟩
    | none => exact ⟨_, execLookup_of_none h, .inr rfl⟩
  | decode w b c =>
    cases h : decodeString w with
    | some bytes => exact ⟨_, execDecode_of_some h, .inl rfl⟩
    | none => exact ⟨_, execDecode_of_none h, .inr rfl⟩
  | validate | parse | encode | unpack => exact ⟨_, rfl, .inl rfl⟩
  | reserved0 | reservedC | reservedD | reservedE | reservedF => cases hi

/-- ACCEPT refuses an ill-formed command: an operand out of its range, or a reserved opcode. -/
theorem exec_code_of_illFormed {i : Instr} (hi : ¬i.wellFormed = true) (s : State) :
    ∃ t, exec i s = .next t ∧ (t.code = .badOperand ∨ t.code = .illegalOp) := by
  cases i with
  | setbit w n v =>
    rw [setbit_wellFormed_iff] at hi
    exact ⟨_, execSetbit_of_ge w n v s (by omega), .inl rfl⟩
  | getbit w n c =>
    rw [getbit_wellFormed_iff] at hi
    exact ⟨_, execGetbit_of_ge w n c s (by omega), .inl rfl⟩
  | revlow w n c =>
    rw [revlow_wellFormed_iff] at hi
    exact ⟨_, execRevlow_of_gt w n c s (by omega), .inl rfl⟩
  | extract d n c =>
    rw [extract_wellFormed_iff] at hi
    exact ⟨_, execExtract_of_ge d n c s (by omega), .inl rfl⟩
  | pack e g sign =>
    rw [pack_wellFormed_iff] at hi
    exact ⟨_, execPack_of_ge e g sign s (by omega), .inl rfl⟩
  | validate | parse | lookup | unpack | encode | decode => exact absurd rfl hi
  | reserved0 | reservedC | reservedD | reservedE | reservedF => exact ⟨_, rfl, .inr rfl⟩

/-! ## What reads the latches (rule R74) -/

section
variable (s : State) (op : BitVec 4) (a b : Word) (c : Bool)

/-- The state with another command in OP, OPA, OPB and OPC. -/
def State.withLatches : State := { s with op := op, opa := a, opb := b, opc := c }

/-- The state with other operands in OPA, OPB and OPC. -/
def State.withOperands : State := s.withLatches s.op a b c

/-- An outcome with other operands in OPA, OPB and OPC of its state. -/
def outcomeWithOperands : Host.Outcome State Fault Refusal → Host.Outcome State Fault Refusal
  | .next t => .next (t.withOperands a b c)
  | .fault r => .fault r
  | .refused r => .refused r

theorem parserUpdate_withLatches (x : Byte) :
    parserUpdate x (s.withLatches op a b c) = (parserUpdate x s).withLatches op a b c := by
  have hs : (s.withLatches op a b c).seen = s.seen := rfl
  have hd : (s.withLatches op a b c).dcnt = s.dcnt := rfl
  rw [parserUpdate, parserUpdate, hs, hd]
  cases classOf x with
  | other => rfl
  | dot => cases s.seen <;> rfl
  | digit v =>
    dsimp only
    split
    · split <;> rfl
    · rfl

theorem parserUpdate_withOperands (x : Byte) :
    parserUpdate x (s.withOperands a b c) = (parserUpdate x s).withOperands a b c := by
  have ho : (parserUpdate x s).op = s.op := by rw [parserUpdate_frame]
  rw [State.withOperands, parserUpdate_withLatches, State.withOperands, ho]

theorem State.complete_withOperands (k : Code) (r : Result) :
    (s.withOperands a b c).complete k r = (s.complete k r).withOperands a b c := by
  unfold State.complete; split <;> rfl

theorem endOfEncodeString_withOperands :
    endOfEncodeString (s.withOperands a b c) = outcomeWithOperands a b c (endOfEncodeString s) := by
  have hv : parseVerdict (s.withOperands a b c) = parseVerdict s := rfl
  have hd : (s.withOperands a b c).dcnt = s.dcnt := rfl
  rw [endOfEncodeString, endOfEncodeString, hv, hd]
  split
  · cases pow10 s.dcnt.toNat <;> rfl
  · rfl

/-- SYMBOL reads OP and none of the operand latches. -/
theorem stepSymbol_withOperands (sym : Symbol) :
    stepSymbol sym (s.withOperands a b c) = outcomeWithOperands a b c (stepSymbol sym s) := by
  have ho : (s.withOperands a b c).op = s.op := rfl
  cases sym with
  | ch x => exact congrArg Host.Outcome.next (parserUpdate_withOperands s a b c x)
  | endOfString =>
    rw [stepSymbol, stepSymbol, endOfString, endOfString, ho]
    split
    · rfl
    split
    · exact congrArg Host.Outcome.next (s.complete_withOperands a b c ..)
    split
    · exact endOfEncodeString_withOperands s a b c
    · rfl

/-- ITER reads OP and none of the operand latches. -/
theorem stepIter_withOperands :
    stepIter (s.withOperands a b c) = outcomeWithOperands a b c (stepIter s) := by
  have ho : (s.withOperands a b c).op = s.op := rfl
  cases hl : lastIteration s.pos.toNat (doublingRem s.edge.toNat s.rem.toNat) with
  | false =>
    rw [stepIter_more hl, stepIter_more (s := s.withOperands a b c) hl]
    rfl
  | true =>
    have hl' : lastIteration (s.withOperands a b c).pos.toNat
        (doublingRem (s.withOperands a b c).edge.toNat (s.withOperands a b c).rem.toNat) = true := hl
    simp only [stepIter, hl, hl', ho, if_true]
    split
    · rfl
    split <;> rfl

/-- No edge of a command in progress reads an operand latch. -/
theorem step_withOperands (hp : s.ph ≠ .idle) (hr : s.presented.rst = false) :
    step (s.withOperands a b c) = outcomeWithOperands a b c (step s) := by
  rcases step_cases s with ⟨hr', -⟩ | ⟨-, ⟨hp', -⟩ | ⟨hp, w, hw, hs⟩ | ⟨hp, hs⟩ | ⟨⟨hp', -⟩ | ⟨hp, hc⟩, hs⟩⟩
  · rw [hr] at hr'; cases hr'
  · exact absurd hp' hp
  · rw [hs]
    exact (step_scan_symbol (s := s.withOperands a b c) hr hp hw).trans
      (stepSymbol_withOperands s.advanceInputs a b c _)
  · rw [hs]
    exact (step_iter (s := s.withOperands a b c) hr hp).trans (stepIter_withOperands s.advanceInputs a b c)
  · exact absurd hp' hp
  · rw [hs]
    exact step_scan_quiet (s := s.withOperands a b c) hr hp hc

theorem scanString_withLatches (str : List Byte) :
    scanString str (s.withLatches op a b c) = (scanString str s).withLatches op a b c := by
  induction str generalizing s with
  | nil => rfl
  | cons x str ih => rw [scanString_cons, scanString_cons, parserUpdate_withLatches, ih]

/-! ## The state in which END finds a string command -/

/-- ACCEPT of the string command and the characters of `str` are done, and END has been taken off the schedule. -/
def State.scanned (str : List Byte) : State := (scanString str (s.accept op a b c).startScan).facing []

/-- What a scan leaves in the parser's registers does not depend on which string command it is for. -/
theorem State.scanned_withLatches (op' : BitVec 4) (str : List Byte) :
    (s.scanned op a b c str).withLatches op' a b c = s.scanned op' a b c str :=
  congrArg (State.facing · []) (scanString_withLatches (s.accept op a b c).startScan op' a b c str).symm

@[simp] theorem State.scanned_op (str : List Byte) : (s.scanned op a b c str).op = op := by
  obtain ⟨h, -⟩ := scanString_started s op a b c str
  exact h

@[simp] theorem State.scanned_obuf (str : List Byte) : (s.scanned op a b c str).obuf = [] := by
  obtain ⟨-, -, -, -, -, -, -, h, -⟩ := scanString_started s op a b c str
  exact h

theorem State.scanned_cleared (str : List Byte) : (s.scanned op a b c str).cleared := by
  obtain ⟨-, -, -, -, -, -, h, -⟩ := scanString_started s op a b c str
  exact h

theorem State.scanned_inv {op : BitVec 4} (ho : op = Opcode.validate ∨ op = Opcode.parse ∨ op = Opcode.encode)
    (str : List Byte) : (s.scanned op a b c str).Inv :=
  ((s.startScan_inv a b c ho).scanString str rfl).facing []

end

/-! ## The extraction (rules R160, R163, R164) -/

/-- The loop of rule R160 from its first pass on. -/
theorem extractPair_spec {d n : Nat} (hn : n < 10 ^ d) : ∃ k, PassCount d n k ∧
    (extractPair d n).exponent = k ∧ (extractPair d n).significand.toNat = n * 2 ^ k / 10 ^ d ∧
    (extractPair d n).truncated = decide (n * 2 ^ k % 10 ^ d ≠ 0) := by
  obtain ⟨k, h1, h23, hmore, hlast, hx⟩ := extractLoop_spec (10 ^ d) n 22 0 0 (by positivity) (by omega)
    (by rw [reverseLowBits_zero, pow_zero, Nat.mul_one, Nat.div_eq_of_lt hn]; rfl)
  rw [pow_zero, Nat.mul_one, Nat.mod_eq_of_lt hn] at hx
  exact ⟨k, ⟨h1, h23, hmore, hlast⟩, hx⟩

/-- An extraction fits the fields of a PackedValue. -/
theorem extractPair_fits {d n : Nat} (hn : n < 10 ^ d) :
    (extractPair d n).exponent ≤ 23 ∧ (extractPair d n).significand.toNat < 2 ^ 23 := by
  obtain ⟨k, ⟨-, h23, -⟩, he, hg, -⟩ := extractPair_spec hn
  refine ⟨he ▸ h23, ?_⟩
  rw [hg, Nat.div_lt_iff_lt_mul (by positivity), Nat.mul_comm (2 ^ 23)]
  exact Nat.mul_lt_mul_of_lt_of_le hn (Nat.pow_le_pow_right (by omega) h23) (by positivity)

/-- PACK of what EXTRACT posts inserts the extraction's fields as ENCODE does (rules R182, R190). -/
theorem execPack_extraction {x : Extraction} (he : x.exponent ≤ 23) (hg : x.significand.toNat < 2 ^ 23) (s : State) :
    execPack (BitVec.ofNat 32 x.exponent) x.significand false s =
      .next ((s.accept Opcode.pack (BitVec.ofNat 32 x.exponent) x.significand false).post
        { rx := packFields false (BitVec.ofNat 8 x.exponent) (x.significand.setWidth 23) }) := by
  have hn : (BitVec.ofNat 32 x.exponent).toNat = x.exponent := ofNat_toNat_of_lt (by omega)
  rw [execPack_of_lt _ _ _ _ (by omega) hg, BitVec.setWidth_ofNat_of_le (by omega)]

/-! ## Whole runs of PARSE, ENCODE and EXTRACT (rules R31 to R33) -/

theorem endOfString_parse {s : State} (ho : s.op = Opcode.parse) : endOfString s = .next (finishParse s) := by
  rw [endOfString, ho, if_neg (by decide), if_pos rfl]

theorem endOfString_encode {s : State} (ho : s.op = Opcode.encode) : endOfString s = endOfEncodeString s := by
  rw [endOfString, ho, if_neg (by decide), if_neg (by decide), if_pos rfl]

theorem endOfEncodeString_of_ok {s : State} (hv : parseVerdict s = .ok) (hd : s.dcnt.toNat ≤ 9) :
    ∃ edge : Word, edge.toNat = 10 ^ s.dcnt.toNat ∧ endOfEncodeString s = .next (s.startIter s.dcnt s.num edge) := by
  obtain ⟨edge, hpow, hedge⟩ := pow10_of_le hd
  exact ⟨edge, hedge, by rw [endOfEncodeString, if_pos hv, hpow]⟩

section
variable {s : State} (hp : s.ph = .idle)
include hp

/-- The extractor's result is posted over a buffer that lists nothing. -/
theorem steps_extract {d n : Word} (c : Bool) (hd : d.toNat ≤ 9) (hn : n.toNat < 10 ^ d.toNat) :
    ∃ u : State, u.obuf = [] ∧
      steps (1 + (extractPair d.toNat n.toNat).exponent) (s.facing (commandEdges (.extract d n c))) =
        .next (u.post
          { rx := (extractPair d.toNat n.toNat).significand,
            ry := BitVec.ofNat 32 (extractPair d.toNat n.toNat).exponent,
            trunc := (extractPair d.toNat n.toNat).truncated }) := by
  obtain ⟨edge, hedge, hx⟩ := execExtract_of_lt d n c (s.facing []) hd hn
  have hstep : step (s.facing (commandEdges (.extract d n c))) = exec (.extract d n c) (s.facing []) :=
    stepRunsThePresentedCommand _ _ [] _ hp rfl rfl rfl
  obtain ⟨u, hu, hrun⟩ := steps_startIter (v := (s.facing []).accept Opcode.extract d n c) (d.setWidth 4) hn hedge
    (.inl rfl) rfl
  refine ⟨u, by rw [hu]; rfl, ?_⟩
  rw [Nat.add_comm 1, steps_succ _ (hstep.trans hx), hrun, finishIterations_extract (by rw [hu]; rfl)]

variable (a b : Word) (c : Bool) (str : List Byte)

theorem steps_parse :
    steps (str.length + 2) (s.facing (stringEdges (.parse a b c) str)) =
      .next (finishParse (s.scanned Opcode.parse a b c str)) :=
  steps_stringEdges hp (decodeCommand_encodeCommand _) (fun _ => rfl) rfl
    (endOfString_parse (s.scanned_op Opcode.parse a b c str))

theorem steps_encode_of_failure {u : State} (hu : u = s.scanned Opcode.encode a b c str)
    (hv : parseVerdict u ≠ .ok) :
    steps (str.length + 2) (s.facing (stringEdges (.encode a b c) str)) = .next (u.raise (parseVerdict u)) := by
  subst hu
  exact steps_stringEdges hp (decodeCommand_encodeCommand _) (fun _ => rfl) rfl
    ((endOfString_encode (s.scanned_op Opcode.encode a b c str)).trans (if_neg hv))

/-- On an OK verdict END starts the extractor on the scanned pair, and the last pass packs its result. -/
theorem steps_encode_of_ok {u : State} (hu : u = s.scanned Opcode.encode a b c str) (hv : parseVerdict u = .ok)
    {x : Extraction} (hx : x = extractPair u.dcnt.toNat u.num.toNat) :
    ∃ v : State, v.obuf = [] ∧
      steps (str.length + 2 + x.exponent) (s.facing (stringEdges (.encode a b c) str)) =
        .next (v.post { rx := packFields false (BitVec.ofNat 8 x.exponent) (x.significand.setWidth 23),
                        trunc := x.truncated }) := by
  have hop : u.op = Opcode.encode := hu ▸ s.scanned_op ..
  have hinv : u.Inv := hu ▸ s.scanned_inv a b c (.inr (.inr rfl)) str
  have hob : u.obuf = [] := hu ▸ s.scanned_obuf ..
  obtain ⟨edge, hedge, hend⟩ := endOfEncodeString_of_ok hv hinv.dcnt_le
  have hscan : steps (str.length + 2) (s.facing (stringEdges (.encode a b c) str)) =
      .next (u.startIter u.dcnt u.num edge) := by
    subst hu
    exact steps_stringEdges hp (decodeCommand_encodeCommand _) (fun _ => rfl) rfl
      ((endOfString_encode hop).trans hend)
  obtain ⟨v, hv, hrun⟩ := steps_startIter u.dcnt hinv.num_lt hedge (.inr hop) (hu ▸ rfl)
  have hvop : v.op = Opcode.encode := by rw [hv]; exact hop
  rw [← hx] at hrun
  refine ⟨v, by rw [hv]; exact hob, ?_⟩
  rw [steps_add _ _ hscan, hrun, finishIterations, hvop, if_neg (by decide), finishEncode, State.complete_ok]

end

end Sys2Proof.Machine
end

section
/-! The obligations of the encoding family. -/

namespace Sys2Proof.Machine

/-- Settles O1: the fields of the word are the opcode and the operands (`decodeCommand_encodeCommand`). -/
theorem decodeInvertsEncode : Obligations.DecodeInvertsEncode := decodeCommand_encodeCommand

/-- Settles O2: decoding keeps the opcode and the operands, and the four fields tile the word. -/
theorem encodeInvertsDecode : Obligations.EncodeInvertsDecode := encodeCommand_decodeCommand

/-- Settles O4: the command word is built from the opcode and the operands, so `CommandWord.build_toNat` says it. -/
theorem commandWordFieldsStandWhereR70Says : Obligations.CommandWordFieldsStandWhereR70Says :=
  fun _ => CommandWord.build_toNat ..

/-- Settles O8: an in-range command answers one of two codes, an ill-formed one one of the two others. -/
theorem illFormedCommandsAreTheRefusedOnes : Obligations.IllFormedCommandsAreTheRefusedOnes := by
  intro i s
  by_cases hi : i.wellFormed = true
  · obtain ⟨t, ht, hc⟩ := exec_code_of_wellFormed hi s
    exact ⟨t, ht, by rcases hc with hc | hc <;> simp [hi, hc]⟩
  · obtain ⟨t, ht, hc⟩ := exec_code_of_illFormed hi s
    exact ⟨t, ht, by rcases hc with hc | hc <;> simp [hi, hc]⟩

/-- Settles O43: PARSE and ENCODE leave the same scan but for OP; on an OK verdict EXTRACT and ENCODE make the same
passes on its pair, and their result fits PACK's fields. -/
theorem encodeIsParseThenExtractThenPack : Obligations.EncodeIsParseThenExtractThenPack := by
  intro a b c c' str s hp
  have hinv := s.scanned_inv a b c (.inr (.inl rfl)) str
  have hcleared := s.scanned_cleared Opcode.encode a b c str
  have hscan := s.scanned_withLatches Opcode.parse a b c Opcode.encode str
  refine ⟨_, steps_parse hp a b c str, ?_⟩
  generalize s.scanned Opcode.parse a b c str = u at hinv hscan
  rw [← hscan] at hcleared
  have hverdict : parseVerdict (u.withLatches Opcode.encode a b c) = parseVerdict u := rfl
  rw [finishParse]
  by_cases hv : parseVerdict u = .ok
  · have hd : (u.dcnt.setWidth 32).toNat = u.dcnt.toNat := BitVec.toNat_setWidth_of_le (by omega)
    obtain ⟨v, -, hextract⟩ := steps_extract hp (d := u.dcnt.setWidth 32) (n := u.num) c' (hd ▸ hinv.dcnt_le)
      (hd ▸ hinv.num_lt)
    obtain ⟨w, hw, hencode⟩ := steps_encode_of_ok hp a b c str hscan (hverdict.trans hv) rfl
    obtain ⟨he, hg⟩ := extractPair_fits hinv.num_lt
    rw [hd] at hextract
    rw [hv, State.complete_ok]
    exact ⟨rfl, fun h => absurd rfl h, fun _ => ⟨_, _, _, _, hextract, rfl, rfl, execPack_extraction he hg s, rfl,
      hencode, State.post_posted_of_empty hw _ (by simp)⟩⟩
  · rw [State.complete_of_ne u _ hv]
    exact ⟨rfl, fun _ => ⟨_, steps_encode_of_failure hp a b c str hscan (hverdict ▸ hv),
      State.raise_failed _ _ hcleared⟩, fun h => absurd h hv⟩

/-- Settles O44: LOOKUP of UNPACK's exponent and DECODE read the same entry of the ROM, or both miss it. -/
theorem decodeIsUnpackThenLookup : Obligations.DecodeIsUnpackThenLookup := by
  intro word b c s
  cases h : romRead (exponentOf word) with
  | some entry =>
    have hd := decodeString_of_romRead_some h
    obtain ⟨-, hlen⟩ := decodeString_length hd
    exact ⟨_, _, _, rfl, execLookup_of_some h, execDecode_of_some hd, rfl,
      fun _ => (State.accept_post_posted s Opcode.decode word b c _ hlen).outputString⟩
  | none =>
    exact ⟨_, _, _, rfl, execLookup_of_none h, execDecode_of_none (decodeString_of_romRead_none h), rfl,
      fun hc => by cases hc⟩

/-- Settles O54: after ACCEPT by `step_withOperands`; each ACCEPT takes the same branch, which the unused ports have no
part in. -/
theorem unusedOperandsOnlyReachTheLatches : Obligations.UnusedOperandsOnlyReachTheLatches := by
  refine ⟨fun s t a b c hp hr ht => ?_, fun a b a' b' c c' s =>
    ⟨?getbit, ?revlow, ?extract, ?lookup, ⟨_, rfl, rfl⟩, ?decode, ⟨_, rfl, rfl⟩, ⟨_, rfl, rfl⟩, ⟨_, rfl, rfl⟩⟩⟩
  · exact (step_withOperands s a b c hp hr).trans (congrArg (outcomeWithOperands a b c) ht)
  case getbit =>
    rcases Nat.lt_or_ge b.toNat 32 with h | h
    · exact ⟨_, execGetbit_of_lt a b c s h, execGetbit_of_lt a b c' s h⟩
    · exact ⟨_, execGetbit_of_ge a b c s h, execGetbit_of_ge a b c' s h⟩
  case revlow =>
    rcases Nat.lt_or_ge 32 b.toNat with h | h
    · exact ⟨_, execRevlow_of_gt a b c s h, execRevlow_of_gt a b c' s h⟩
    · exact ⟨_, execRevlow_of_le a b c s h, execRevlow_of_le a b c' s h⟩
  case extract =>
    by_cases h : a.toNat ≤ 9 ∧ b.toNat < 10 ^ a.toNat
    · obtain ⟨edge, he, hx⟩ := execExtract_of_lt a b c s h.1 h.2
      obtain ⟨edge', he', hx'⟩ := execExtract_of_lt a b c' s h.1 h.2
      obtain rfl := BitVec.eq_of_toNat_eq (he.trans he'.symm)
      exact ⟨_, hx, hx'⟩
    · exact ⟨_, execExtract_of_ge a b c s (by omega), execExtract_of_ge a b c' s (by omega)⟩
  case lookup =>
    cases h : romRead a with
    | some entry => exact ⟨_, execLookup_of_some h, execLookup_of_some h⟩
    | none => exact ⟨_, execLookup_of_none h, execLookup_of_none h⟩
  case decode =>
    cases h : decodeString a with
    | some bytes => exact ⟨_, execDecode_of_some h, execDecode_of_some h⟩
    | none => exact ⟨_, execDecode_of_none h, execDecode_of_none h⟩

/-- Settles O3: each of the words is the word of its opcode's command. -/
theorem opcodeAloneSelectsTheOperation : Obligations.OpcodeAloneSelectsTheOperation := by
  intro a b c
  have h := decodeCommand_encodeCommand
  refine ⟨h (.setbit a b c), h (.getbit a b c), h (.revlow a b c), h (.validate a b c), h (.parse a b c),
    h (.lookup a b c), h (.extract a b c), h (.pack a b c), h (.unpack a b c), h (.encode a b c), h (.decode a b c), ?_⟩
  rintro op (rfl | rfl | rfl | rfl | rfl)
  · exact congrArg Instr.wellFormed (h (.reserved0 a b c))
  · exact congrArg Instr.wellFormed (h (.reservedC a b c))
  · exact congrArg Instr.wellFormed (h (.reservedD a b c))
  · exact congrArg Instr.wellFormed (h (.reservedE a b c))
  · exact congrArg Instr.wellFormed (h (.reservedF a b c))

/-- Settles O5: each printed number is the number of its command's word. -/
theorem printedCommandWordsDecode : Obligations.PrintedCommandWordsDecode :=
  have h := decodeNat_encodeCommand
  ⟨h (.setbit 0 32 true), h (.revlow 5 3 false), h (.parse 0 0 false), h (.lookup 23 0 true), h (.extract 4 150 false),
    h (.pack 1 1 true), h (.decode 0x80800001 0 false), h (.reservedC 1 2 true)⟩

/-- Settles O6: `sym_end` is bit 8 of the symbol's word. -/
theorem symbolPortFormat : Obligations.SymbolPortFormat :=
  fun data => ⟨decodeSymbol_ch data, decodeSymbol_endOfString data⟩

/-- Settles O19: `classOf` on each side of its two tests. -/
theorem characterClasses : Obligations.CharacterClasses :=
  fun _ => ⟨classOf_digit, classOf_dot, fun ⟨hdigit, hdot⟩ => classOf_other hdigit hdot⟩

/-- Settles O45: ACCEPT, then `raise` over the absent result ACCEPT left. -/
theorem reservedOpcodesAreIllegal : Obligations.ReservedOpcodesAreIllegal := by
  intro a b c s i hi
  have hx : exec i s =
      .next ((s.accept i.opcode i.operands.1 i.operands.2.1 i.operands.2.2).raise .illegalOp) := by
    rcases hi with rfl | rfl | rfl | rfl | rfl <;> rfl
  exact ⟨_, hx, s.accept_latched i, rfl, s.accept_sameWorking i.opcode i.operands.1 i.operands.2.1 i.operands.2.2,
    s.accept_raise_failed ..⟩

/-- Settles O57: the ports by their definitions; a busy core is `cleared`, by the invariant. -/
theorem outputPortsShowTheState : Obligations.OutputPortsShowTheState := by
  refine ⟨fun s => ⟨decide_eq_true_iff, decide_eq_true_iff, decide_eq_true_iff, rfl, rfl, rfl, rfl, rfl, rfl, rfl, ?_⟩,
    fun s h hb => ?_⟩
  · show s.code.toBits.toNat = _
    cases s.code <;> rfl
  · have hp : s.ph ≠ .idle := of_decide_eq_true hb
    obtain ⟨hdone, hcode, htrunc, hx, hy, hz, hw, hlen, hread⟩ := h.cleared hp
    refine ⟨decide_eq_false hp, hdone, congrArg Code.toBits hcode, htrunc, hx, hy, hz, hw, hlen, fun i => ?_⟩
    rcases Nat.lt_or_ge 24 i.toNat with hi | hi
    · exact s.obData_of_ge hi
    · exact (s.obData_of_le hi).trans (hread _)

end Sys2Proof.Machine
end

section
/-! SUPPORT. Laws of the bit primitives: the run REVLOW reads, reversed twice and as a number, and what a command
refused at its ACCEPT leaves. -/

namespace Sys2Proof.Machine

/-! ## The reversed run (rules R102, R106, R107) -/

theorem getLsbD_reverseLowBits_of_lt (word : Word) {count i : Nat} (hc : count ≤ 32) (hi : i < count) :
    (reverseLowBits word count).getLsbD i = word.getLsbD (count - 1 - i) := by
  rw [getLsbD_reverseLowBits]
  simp [hi, Nat.lt_of_lt_of_le hi hc]

theorem getLsbD_reverseLowBits_of_ge (word : Word) {count i : Nat} (hi : count ≤ i) :
    (reverseLowBits word count).getLsbD i = false := by
  simp [getLsbD_reverseLowBits, Nat.not_lt.mpr hi]

/-- Below `count` the two reversals of the index cancel; from `count` on the outer one gives 0. -/
theorem reverseLowBits_reverseLowBits_toNat (word : Word) {count : Nat} (hc : count ≤ 32) :
    (reverseLowBits (reverseLowBits word count) count).toNat = word.toNat % 2 ^ count := by
  apply Nat.eq_of_testBit_eq
  intro i
  rw [BitVec.testBit_toNat, Nat.testBit_mod_two_pow, BitVec.testBit_toNat]
  rcases Nat.lt_or_ge i count with hi | hi
  · have hback : count - 1 - (count - 1 - i) = i := by omega
    rw [getLsbD_reverseLowBits_of_lt _ hc hi, getLsbD_reverseLowBits_of_lt _ hc (by omega), hback]
    simp [hi]
  · rw [getLsbD_reverseLowBits_of_ge _ hi]
    simp [Nat.not_lt.mpr hi]

/-- By induction on the run: taking in one more digit doubles the place value of those before it. -/
theorem reverseLowBits_toNat_eq_sum (word : Word) {count : Nat} (hc : count ≤ 32) :
    (reverseLowBits word count).toNat =
      ∑ i ∈ Finset.range count, (word.getLsbD i).toNat * 2 ^ (count - 1 - i) := by
  induction count with
  | zero => rw [reverseLowBits_zero]; rfl
  | succ n ih =>
    have hplace : ∀ i ∈ Finset.range n,
        2 * ((word.getLsbD i).toNat * 2 ^ (n - 1 - i)) = (word.getLsbD i).toNat * 2 ^ (n - i) := by
      intro i hi
      rw [Finset.mem_range] at hi
      rw [show n - i = n - 1 - i + 1 by omega, pow_succ]
      ring
    rw [reverseLowBits_succ_toNat word hc, ih (by omega), Finset.mul_sum, Finset.sum_congr rfl hplace,
      Finset.sum_range_succ, Nat.add_sub_cancel, Nat.sub_self, pow_zero, Nat.mul_one]

/-! ## A command refused at its ACCEPT (rules R31, R35) -/

/-- `raise` over what ACCEPT left: the latches hold the command, no working register changes, the result is absent. -/
theorem exec_failed {i : Instr} {s : State} {k : Code}
    (hx : exec i s = .next ((s.accept i.opcode i.operands.1 i.operands.2.1 i.operands.2.2).raise k)) :
    ∃ t, exec i s = .next t ∧ t.latched i ∧ t.inputs = s.inputs ∧ s.sameWorking t ∧ t.failed k :=
  ⟨_, hx, s.accept_latched i, rfl, s.accept_sameWorking i.opcode i.operands.1 i.operands.2.1 i.operands.2.2,
    s.accept_raise_failed ..⟩

end Sys2Proof.Machine
end

section
/-! The obligations of the bit primitives. -/

namespace Sys2Proof.Machine

/-- Settles O14: each side of `n = 32` by the command's equation; the bits by `getLsbD_setBit`. -/
theorem setbitWritesOneBit : Obligations.SetbitWritesOneBit := fun word n value s =>
  ⟨fun h => ⟨_, execSetbit_of_lt word n value s h, s.accept_latched (.setbit word n value), rfl,
      s.accept_sameWorking Opcode.setbit word n value, s.accept_post_posted _ _ _ _ _ (Nat.zero_le _),
      fun i _ => getLsbD_setBit word n.toNat value i h⟩,
    fun h => exec_failed (execSetbit_of_ge word n value s h)⟩

/-- Settles O15: each side of `n = 32` by the command's equation; RX is `getBit` as a number. -/
theorem getbitReadsOneBit : Obligations.GetbitReadsOneBit := fun word n c s =>
  ⟨fun h => ⟨_, execGetbit_of_lt word n c s h, s.accept_latched (.getbit word n c), rfl,
      s.accept_sameWorking Opcode.getbit word n c, s.accept_post_posted _ _ _ _ _ (Nat.zero_le _),
      (boolWord_toNat _).trans (getBit_toNat word n.toNat)⟩,
    fun h => exec_failed (execGetbit_of_ge word n c s h)⟩

/-- Settles O16: `count` is in range or refused; the bits of the run and those above it. -/
theorem revlowReversesTheLowBits : Obligations.RevlowReversesTheLowBits := fun word count c s =>
  ⟨fun h => ⟨_, execRevlow_of_le word count c s h, s.accept_latched (.revlow word count c), rfl,
      s.accept_sameWorking Opcode.revlow word count c, s.accept_post_posted _ _ _ _ _ (Nat.zero_le _),
      fun _ => getLsbD_reverseLowBits_of_lt word h, fun _ => getLsbD_reverseLowBits_of_ge word⟩,
    fun h => exec_failed (execRevlow_of_gt word count c s h)⟩

/-- Settles O17: both commands are in range, and the second reverses the run the first posted. -/
theorem revlowTwiceKeepsTheLowBits : Obligations.RevlowTwiceKeepsTheLowBits := fun word count c c' s h =>
  ⟨_, _, execRevlow_of_le word count c s h, execRevlow_of_le _ count c' _ h, rfl,
    reverseLowBits_reverseLowBits_toNat word h⟩

/-- Settles O18: the posted run as a number. -/
theorem revlowReadsTheLowestBitAsMostSignificant : Obligations.RevlowReadsTheLowestBitAsMostSignificant :=
  fun word count c s h => ⟨_, execRevlow_of_le word count c s h, rfl, reverseLowBits_toNat_lt word count.toNat,
    reverseLowBits_toNat_eq_sum word h⟩

end Sys2Proof.Machine
end

section
/-! SUPPORT. Laws of the decimal parser: the edge that presents a symbol, the verdict over DCNT as a number, what END
answers for each string operation, and what completing a command leaves unchanged. -/

namespace Sys2Proof.Machine

/-! ## Completing a command (rule R35) -/

/-- `complete` leaves the latches, the working registers and the host's schedule as they were. -/
theorem State.complete_keeps (s : State) (k : Code) (r : Result) :
    (s.complete k r).inputs = s.inputs ∧ s.sameLatches (s.complete k r) ∧ s.sameWorking (s.complete k r) := by
  unfold State.complete
  split
  · exact ⟨rfl, ⟨rfl, rfl, rfl, rfl⟩, rfl, rfl, rfl, rfl, rfl, rfl, rfl, rfl, rfl⟩
  · exact ⟨rfl, ⟨rfl, rfl, rfl, rfl⟩, rfl, rfl, rfl, rfl, rfl, rfl, rfl, rfl, rfl⟩

/-- A failing `complete` leaves the absent result ACCEPT left, whatever it was asked to post. -/
theorem State.complete_failed {s : State} (hc : s.cleared) {k : Code} (hk : k ≠ .ok) (r : Result) :
    (s.complete k r).failed k := by
  rw [State.complete_of_ne s r hk]
  exact s.raise_failed k hc

/-- A command in progress has room for its result. -/
theorem State.Inv.post_posted {s : State} (h : s.Inv) (hp : s.ph ≠ .idle) (r : Result) (hl : r.bytes.length ≤ 25) :
    (s.post r).posted r := by
  obtain ⟨-, -, -, -, -, -, -, -, hread⟩ := h.cleared hp
  exact State.post_posted s r h.obuf_wf hread hl

/-! ## The edge that presents a symbol (rule R32) -/

theorem step_presentedSymbol {s : State} {e : HostInput} {rest : List HostInput} {sym : Symbol} (hp : s.ph = .scan)
    (hi : s.inputs = e :: rest) (hr : e.rst = false) (hs : e.sym = some (encodeSymbol sym)) :
    step s = stepSymbol sym (s.facing rest) := by
  have he := s.presented_cons hi
  rw [step_scan_symbol (by rwa [he]) hp (by rwa [he]), decodeSymbol_encodeSymbol, State.advanceInputs, hi,
    List.tail_cons, State.facing]

/-! ## The verdict and END (rules R32, R123) -/

theorem parseVerdict_eq (s : State) :
    parseVerdict s =
      if s.bad = true then .invalidInput else if s.seen = false then .invalidInput
      else if s.ovf = true then .fracTooLong else if s.dcnt.toNat = 0 then .invalidInput else .ok := by
  have hd : s.dcnt = 0#4 ↔ s.dcnt.toNat = 0 := BitVec.toNat_inj.symm
  simp only [parseVerdict, Bool.not_eq_true', hd]

theorem boolWord_not (v : Bool) : boolWord (!v) = if v = true then 0 else 1 := by
  cases v <;> rfl

theorem endOfString_validate {s : State} (ho : s.op = Opcode.validate) : endOfString s = .next (finishValidate s) := by
  rw [endOfString, if_pos ho]

theorem finishParse_of_ok {s : State} (hv : parseVerdict s = .ok) :
    finishParse s = s.post { rx := BitVec.ofNat 32 s.dcnt.toNat, ry := s.num } := by
  rw [finishParse, hv, State.complete_ok, BitVec.ofNat_toNat]

/-- PARSE and ENCODE fail alike, with the verdict and an absent result. -/
theorem endOfString_of_failure {s : State} (ho : s.op = Opcode.parse ∨ s.op = Opcode.encode)
    (hv : parseVerdict s ≠ .ok) : endOfString s = .next (s.complete (parseVerdict s) {}) := by
  rw [State.complete_of_ne s _ hv]
  rcases ho with ho | ho
  · rw [endOfString_parse ho, finishParse, State.complete_of_ne s _ hv]
  · rw [endOfString_encode ho, endOfEncodeString, if_neg hv]

/-! ## A string command that END completes (rules R31, R32) -/

/-- From ACCEPT to END only the latches, the parser's registers and the outcome are written. -/
theorem State.scanned_complete (s : State) (op : BitVec 4) (a b : Word) (c : Bool) (str : List Byte) (k : Code)
    (r : Result) :
    let t := (s.scanned op a b c str).complete k r
    (t.op = op ∧ t.opa = a ∧ t.opb = b ∧ t.opc = c) ∧ t.inputs = [] ∧ s.sameExtractor t := by
  obtain ⟨hop, hopa, hopb, hopc, -, ⟨hedge, hrem, hacc, hpos⟩, -⟩ := scanString_started s op a b c str
  obtain ⟨hi, ⟨ho, hoa, hob, hoc⟩, -, -, -, -, -, he, hr, ha, hp⟩ := (s.scanned op a b c str).complete_keeps k r
  exact ⟨⟨ho.trans hop, hoa.trans hopa, hob.trans hopb, hoc.trans hopc⟩, hi, he.trans hedge, hr.trans hrem,
    ha.trans hacc, hp.trans hpos⟩

theorem State.scanned_bad (s : State) (op : BitVec 4) (a b : Word) (c : Bool) (str : List Byte) :
    (s.scanned op a b c str).bad = false ↔ ValidDecimal str := by
  obtain ⟨-, -, -, -, -, -, -, -, -, h⟩ := scanString_started s op a b c str
  exact h

theorem steps_validate {s : State} (hp : s.ph = .idle) (a b : Word) (c : Bool) (str : List Byte) :
    steps (str.length + 2) (s.facing (stringEdges (.validate a b c) str)) =
      .next (finishValidate (s.scanned Opcode.validate a b c str)) :=
  steps_stringEdges hp (decodeCommand_encodeCommand _) (fun _ => rfl) rfl
    (endOfString_validate (s.scanned_op Opcode.validate a b c str))

/-- DCNT and NUM when PARSE has scanned `whole . frac`, on the result registers (rule R127). -/
theorem finishParse_decimal_posted {s u : State} {a b : Word} {c : Bool} {whole frac : List Byte}
    (hu : u = s.scanned Opcode.parse a b c (decimalString whole frac)) (hw : AllDigits whole) (hf : AllDigits frac)
    (hl : frac.length ≤ 9) (hv : parseVerdict u = .ok) :
    (finishParse u).posted { rx := BitVec.ofNat 32 frac.length, ry := BitVec.ofNat 32 (digitsValue frac) } := by
  subst hu
  obtain ⟨-, -, -, hpair⟩ :=
    scanString_decimal hw hf (t := (s.accept Opcode.parse a b c).startScan) rfl rfl rfl rfl rfl
  obtain ⟨hd, hn⟩ := hpair hl
  have hd := (congrArg BitVec.toNat hd).trans (ofNat_toNat_of_lt (by omega))
  rw [finishParse_of_ok hv, State.scanned, State.facing, hd, hn]
  exact State.post_posted_of_empty (s.scanned_obuf ..) _ (Nat.zero_le _)

end Sys2Proof.Machine
end

section
/-! The obligations of the decimal parser. -/

namespace Sys2Proof.Machine

/-- Settles O21: each clause is `parserUpdate`'s equation for its class; the last by R121's bound on NUM. -/
theorem characterSymbolUpdatesTheScanner : Obligations.CharacterSymbolUpdatesTheScanner := by
  intro s e rest b h hp hi hr hs
  have hstep : step s = .next (parserUpdate b (s.facing rest)) := step_presentedSymbol hp hi hr hs
  rw [hstep]
  refine ⟨fun ⟨hdigit, hdot⟩ => ?other, fun hdot (hseen : (s.facing rest).seen = true) => ?secondPoint,
    fun hdot (hseen : (s.facing rest).seen = false) => ?firstPoint,
    fun hdigit (hseen : (s.facing rest).seen = false) => ?before,
    fun hdigit (hseen : (s.facing rest).seen = true) h9 => ?full,
    fun hdigit (hseen : (s.facing rest).seen = true) h9 => ?after⟩
  case other => rw [parserUpdate_other hdigit hdot]; rfl
  case secondPoint => rw [(byte_dot_iff b).mpr hdot, parserUpdate_dot, if_pos hseen]; rfl
  case firstPoint => rw [(byte_dot_iff b).mpr hdot, parserUpdate_dot, if_neg (Bool.eq_false_iff.mp hseen)]; rfl
  case before => rw [parserUpdate_digit_before hdigit hseen]; rfl
  case full => rw [parserUpdate_digit_full hdigit hseen (BitVec.eq_of_toNat_eq h9)]; rfl
  case after =>
    have hlt : s.dcnt.toNat < 9 := Nat.lt_of_le_of_ne h.dcnt_le h9
    obtain ⟨-, hnum⟩ := numerator_digit h.num_lt hlt (v := b.toNat - 0x30) (by omega)
    rw [parserUpdate_digit_after hdigit hseen fun hd => h9 (congrArg BitVec.toNat hd)]
    exact ⟨_, rfl, rfl, dcnt_succ hlt, hnum⟩

/-- Settles O22: END by the operation and the verdict; the invariant gives the buffer room and POW10 its index. -/
theorem endSymbolFinishesTheString : Obligations.EndSymbolFinishesTheString := by
  intro s e rest v h hp hi hr hs hv
  obtain rfl : v = parseVerdict (s.facing rest) := hv.trans (parseVerdict_eq s).symm
  have hstep : step s = endOfString (s.facing rest) := step_presentedSymbol hp hi hr hs
  have hbusy : (s.facing rest).ph ≠ .idle := by rw [State.facing_ph, hp]; decide
  have hinv := h.facing rest
  have hcleared := hinv.cleared hbusy
  have hkeeps := (s.facing rest).complete_keeps
  rw [hstep]
  refine ⟨fun (ho : (s.facing rest).op = _) => ?validate, fun (ho : (s.facing rest).op = _) hv => ?parse,
    fun (ho : (s.facing rest).op = _) hv => ?encode,
    fun (ho : (s.facing rest).op = _ ∨ (s.facing rest).op = _) hv => ?failure⟩
  case validate =>
    obtain ⟨hin, hlatches, hworking⟩ := hkeeps .ok { rx := boolWord !s.bad }
    refine ⟨_, endOfString_validate ho, hin, hlatches, hworking, ?_⟩
    rw [← boolWord_not]
    exact hinv.post_posted hbusy _ (Nat.zero_le _)
  case parse =>
    obtain ⟨hin, hlatches, hworking⟩ := hkeeps .ok { rx := BitVec.ofNat 32 s.dcnt.toNat, ry := s.num }
    exact ⟨_, (endOfString_parse ho).trans (congrArg _ (finishParse_of_ok hv)), hin, hlatches, hworking,
      hinv.post_posted hbusy _ (Nat.zero_le _)⟩
  case encode =>
    obtain ⟨edge, hedge, hx⟩ := endOfEncodeString_of_ok hv hinv.dcnt_le
    exact ⟨_, (endOfString_encode ho).trans hx, rfl, ⟨rfl, rfl, rfl, rfl⟩, hcleared, rfl, rfl, rfl, rfl, rfl, rfl,
      hedge, rfl, rfl, rfl⟩
  case failure =>
    obtain ⟨hin, hlatches, hworking⟩ := hkeeps (parseVerdict (s.facing rest)) {}
    exact ⟨_, endOfString_of_failure ho hv, hin, hlatches, hworking, State.complete_failed hcleared hv _⟩

/-- Settles O23: BAD is 0 at END exactly over a valid string (`scanned_bad`). -/
theorem validateReportsTheStructuralVerdict : Obligations.ValidateReportsTheStructuralVerdict := by
  intro a b c str s hp
  have hrun := steps_validate hp a b c str
  have hbad := s.scanned_bad Opcode.validate a b c str
  have hobuf := s.scanned_obuf Opcode.validate a b c str
  have hkeeps := s.scanned_complete Opcode.validate a b c str
  generalize s.scanned Opcode.validate a b c str = u at hrun hbad hobuf hkeeps
  obtain ⟨hlatched, hin, hext⟩ := hkeeps .ok { rx := boolWord !u.bad }
  have hposted : (finishValidate u).posted { rx := boolWord !u.bad } :=
    State.post_posted_of_empty hobuf _ (Nat.zero_le _)
  refine ⟨_, hrun, hlatched, hin, hext, fun hvalid => ?_, fun hinvalid => ?_⟩
  · rwa [hbad.mpr hvalid] at hposted
  · rwa [Bool.eq_true_of_not_eq_false fun hb => hinvalid (hbad.mp hb)] at hposted

/-- Settles O24: the verdict by the shape of the string, and the pair the scan counted when it is OK. -/
theorem parseReportsThePair : Obligations.ParseReportsThePair := by
  intro a b c str s hp
  obtain ⟨hinvalid, hnopoint, hdecimal⟩ :=
    parseVerdict_scanString str (t := (s.accept Opcode.parse a b c).startScan) rfl rfl rfl rfl rfl
  obtain ⟨hlatched, hin, hext⟩ := s.scanned_complete Opcode.parse a b c str _ _
  have hfails : ∀ k, k ≠ .ok → parseVerdict (s.scanned Opcode.parse a b c str) = k →
      (finishParse (s.scanned Opcode.parse a b c str)).failed k := by
    rintro k hk rfl
    exact State.complete_failed (s.scanned_cleared ..) hk _
  refine ⟨_, steps_parse hp a b c str, hlatched, hin, hext, fun h => hfails _ (by decide) (hinvalid h),
    fun h => hfails _ (by decide) (hnopoint h), fun whole frac hw hf hstr => ?_⟩
  obtain ⟨hempty, hlong, hok⟩ := hdecimal whole frac hw hf hstr
  subst hstr
  exact ⟨fun h => hfails _ (by decide) (hempty h), fun h => hfails _ (by decide) (hlong h), fun h1 h9 =>
    ⟨finishParse_decimal_posted rfl hw hf h9 (hok h1 h9), digitsValue_lt frac hf⟩⟩

/-- Settles O20: the three commands share ACCEPT's common part and `parser_init`. -/
theorem stringCommandsStartTheScanner : Obligations.StringCommandsStartTheScanner := by
  intro a b c s i hi
  have hx : exec i s = .next (s.accept i.opcode i.operands.1 i.operands.2.1 i.operands.2.2).startScan := by
    rcases hi with rfl | rfl | rfl <;> rfl
  exact ⟨_, hx, s.accept_latched i, rfl, ⟨rfl, rfl, rfl, rfl⟩,
    s.accept_cleared i.opcode i.operands.1 i.operands.2.1 i.operands.2.2, rfl, rfl, rfl, rfl, rfl, rfl⟩

end Sys2Proof.Machine
end

section
/-! SUPPORT. Laws of the lookup ROM: RW has room for every entry's numerator, and LOOKUP answers OK at the ROM's own
indices only. -/

namespace Sys2Proof.Machine

/-- RW's 128 bits hold every numerator of R51: `5^23 < 2^128`. -/
theorem romNumerator_toNat {k : Nat} (h : k ≤ 23) : (BitVec.ofNat 128 (5 ^ k)).toNat = 5 ^ k := by
  have hlt : 5 ^ k < 2 ^ 128 := by
    calc 5 ^ k ≤ 5 ^ 23 := Nat.pow_le_pow_right (by decide) h
      _ < 2 ^ 128 := by decide
  rw [BitVec.toNat_ofNat, Nat.mod_eq_of_lt hlt]

/-- CODE = OK after LOOKUP means that the index has an entry, and that the entry was posted (rule R152). -/
theorem execLookup_of_ok {e b : Word} {c : Bool} {s t : State} (hx : execLookup e b c s = .next t)
    (hok : t.code = .ok) : 1 ≤ e.toNat ∧ e.toNat ≤ 23 ∧
      t = (s.accept Opcode.lookup e b c).post { rw := BitVec.ofNat 128 (5 ^ e.toNat), rx := e } := by
  by_cases h : 1 ≤ e.toNat ∧ e.toNat ≤ 23
  · obtain ⟨h1, h2⟩ := h
    rw [execLookup_of_mem e b c s h1 h2] at hx
    exact ⟨h1, h2, (Host.Outcome.next.inj hx).symm⟩
  · rw [execLookup_of_not_mem e b c s (by omega)] at hx
    obtain rfl := Host.Outcome.next.inj hx
    cases hok

end Sys2Proof.Machine
end

section
/-! The obligations of the lookup ROM. -/

namespace Sys2Proof.Machine

/-- Settles O25: an index of the ROM posts its entry, any other is refused at ACCEPT. -/
theorem lookupReadsThePowerOfFive : Obligations.LookupReadsThePowerOfFive := fun index b c s =>
  ⟨fun ⟨h1, h2⟩ => ⟨_, execLookup_of_mem index b c s h1 h2, s.accept_latched (.lookup index b c), rfl,
      s.accept_sameWorking Opcode.lookup index b c, s.accept_post_posted _ _ _ _ _ (Nat.zero_le _)⟩,
    fun h => exec_failed (execLookup_of_not_mem index b c s h)⟩

/-- Settles O26: the posted numerator is `5^index` with nothing cut off, and `5^index · 2^index = 10^index`. -/
theorem lookupIsExact : Obligations.LookupIsExact := by
  intro index b c s t hx hok
  obtain ⟨-, hle, rfl⟩ := execLookup_of_ok hx hok
  calc (BitVec.ofNat 128 (5 ^ index.toNat)).toNat * 2 ^ index.toNat
      = 5 ^ index.toNat * 2 ^ index.toNat := by rw [romNumerator_toNat hle]
    _ = 10 ^ index.toNat := (Nat.mul_pow 5 2 _).symm

end Sys2Proof.Machine
end

section
/-! SUPPORT. Laws of the significand extractor: what the core holds at the last pass of EXTRACT, and when the loop of
rule R160 ends without a remainder. -/

namespace Sys2Proof.Machine

/-! ## EXTRACT from ACCEPT to its last pass (rules R31, R33, R162) -/

theorem step_presentedExtract {s : State} (hp : s.ph = .idle) (d n : Word) (c : Bool) :
    step (s.facing (commandEdges (.extract d n c))) = execExtract d n c (s.facing []) :=
  stepRunsThePresentedCommand (s.facing _) _ [] (.extract d n c) hp rfl rfl rfl

/-- `steps_extract` with what its result is posted over: the latches and the empty buffer that ACCEPT left. -/
theorem steps_extract_post {d n : Word} (c : Bool) {s : State} (hp : s.ph = .idle) (hd : d.toNat ≤ 9)
    (hn : n.toNat < 10 ^ d.toNat) {x : Extraction} (hx : x = extractPair d.toNat n.toNat) :
    ∃ u : State, u.latched (.extract d n c) ∧ u.inputs = [] ∧ u.obuf = [] ∧
      steps (1 + x.exponent) (s.facing (commandEdges (.extract d n c))) =
        .next (u.post { rx := x.significand, ry := BitVec.ofNat 32 x.exponent, trunc := x.truncated }) := by
  subst hx
  obtain ⟨edge, hedge, hstart⟩ := execExtract_of_lt d n c (s.facing []) hd hn
  obtain ⟨u, hu, hrun⟩ := steps_startIter (v := (s.facing []).accept Opcode.extract d n c) (d.setWidth 4) hn hedge
    (.inl rfl) rfl
  have hop : u.op = Opcode.extract := by rw [hu]; rfl
  refine ⟨u, by rw [hu]; exact ⟨rfl, rfl, rfl, rfl⟩, by rw [hu]; rfl, by rw [hu]; rfl, ?_⟩
  rw [Nat.add_comm 1, steps_succ _ ((step_presentedExtract hp d n c).trans hstart), hrun, finishIterations_extract hop]

/-! ## Exact extractions (rule R164) -/

/-- Doubling the numerator supplies the twos of `10^d` but none of its fives. -/
theorem five_pow_dvd_of_ten_pow_dvd {d n k : Nat} (h : 10 ^ d ∣ n * 2 ^ k) : 5 ^ d ∣ n :=
  have hcoprime : Nat.Coprime (5 ^ d) (2 ^ k) := Nat.Coprime.pow d k (by decide)
  hcoprime.dvd_of_dvd_mul_right ((pow_dvd_pow_of_dvd (by decide) d).trans h)

/-- `d` doublings supply all the twos of `10^d`. -/
theorem ten_pow_dvd_of_five_pow_dvd {d n : Nat} (h : 5 ^ d ∣ n) : 10 ^ d ∣ n * 2 ^ d := by
  rw [show 10 = 5 * 2 from rfl, Nat.mul_pow]
  exact Nat.mul_dvd_mul_right h _

/-- The loop of rule R163 has stopped by pass `d` when the `d`-fold doubling leaves no remainder. -/
theorem PassCount.le_of_five_pow_dvd {d n k : Nat} (hk : PassCount d n k) (hd : 1 ≤ d) (h : 5 ^ d ∣ n) : k ≤ d := by
  obtain ⟨-, -, hleast, -⟩ := hk
  by_contra hlt
  exact hleast d hd (by omega) (Nat.mod_eq_zero_of_dvd (ten_pow_dvd_of_five_pow_dvd h))

theorem PassCount.ten_pow_dvd_iff {d n k : Nat} (hk : PassCount d n k) (h1 : 1 ≤ d) (h9 : d ≤ 9) :
    10 ^ d ∣ n * 2 ^ k ↔ 5 ^ d ∣ n := by
  refine ⟨five_pow_dvd_of_ten_pow_dvd, fun h => ?_⟩
  have hle := hk.le_of_five_pow_dvd h1 h
  obtain ⟨-, -, -, hzero | hcap⟩ := hk
  · exact Nat.dvd_of_mod_eq_zero hzero
  · omega

/-- A fraction below 1, truncated to `k` binary digits. -/
theorem truncatedFraction_lt {d n : Nat} (hn : n < 10 ^ d) (k : Nat) : n * 2 ^ k / 10 ^ d < 2 ^ k :=
  Nat.div_lt_of_lt_mul (Nat.mul_lt_mul_of_pos_right hn (by positivity))

end Sys2Proof.Machine
end

section
/-! The obligations of the significand extractor. -/

namespace Sys2Proof.Machine

/-- Settles O29: a good pair runs to its last pass (`steps_extract_post`), any other is refused at ACCEPT. -/
theorem extractPostsTheLoopsResult : Obligations.ExtractPostsTheLoopsResult := by
  refine fun d n c s hp => ⟨fun ⟨hd, hn⟩ => ?_, fun h => ?_⟩
  · obtain ⟨u, hlatched, hin, hobuf, hrun⟩ := steps_extract_post c hp hd hn rfl
    exact ⟨_, hrun, hlatched, hin, State.post_posted_of_empty hobuf _ (Nat.zero_le _)⟩
  · obtain ⟨t, ht, hlatched, hin, -, hfailed⟩ :=
      exec_failed (i := .extract d n c) (execExtract_of_ge d n c (s.facing []) h)
    exact ⟨t, steps_succ 0 ((step_presentedExtract hp d n c).trans ht), hlatched, hin, hfailed⟩

/-- Settles O30: the loop is long division in base 2 from its first pass on. -/
theorem extractionIsTheTruncatedFraction : Obligations.ExtractionIsTheTruncatedFraction :=
  fun _ _ _ hn => extractPair_spec hn

/-- Settles O31: the remainder at the last pass is 0 exactly when the fives of `10^d` are in the numerator. -/
theorem extractionIsExactIffFivesDivide : Obligations.ExtractionIsExactIffFivesDivide := by
  intro d n h1 h9 hn
  obtain ⟨k, hk, he, hg, ht⟩ := extractPair_spec hn
  have hexact : (extractPair d n).truncated = false ↔ 5 ^ d ∣ n := by
    rw [← hk.ten_pow_dvd_iff h1 h9, Nat.dvd_iff_mod_eq_zero, ht, decide_eq_false_iff_not, not_not]
  rw [he, hg]
  refine ⟨hexact, fun h => ?exact, fun h => ?truncated, truncatedFraction_lt hn k⟩
  case exact =>
    have hle := hk.le_of_five_pow_dvd h1 (hexact.mp h)
    obtain ⟨hpos, -⟩ := hk
    exact ⟨hpos, hle⟩
  case truncated =>
    obtain ⟨-, -, -, hzero | hcap⟩ := hk
    · rw [ht, decide_eq_true_eq] at h
      exact absurd hzero h
    · exact hcap

/-- Settles O32: the passes left below CAP are 23 − POS, and the last one posts a result (`steps_iter`). -/
theorem iterationsEndWithinTheCap : Obligations.IterationsEndWithinTheCap := by
  intro s h hp hi
  have hpos := h.iter_pos hp
  obtain ⟨k, u, h1, hk, -, -, hrun⟩ :=
    steps_iter (22 - s.pos.toNat) s hp (h.iter_op hp) (by omega) (h.iter_rem hp) hi
  obtain ⟨r, hpost⟩ := finishIterations_eq_post u _
  rw [hpost] at hrun
  exact ⟨k, u.post r, h1, by omega, hrun, rfl, rfl, rfl⟩

end Sys2Proof.Machine
end

section
/-! SUPPORT. Laws of the packer and unpacker: each field read back out of a packed word, the word rebuilt from its
fields, and what a command that completes with CODE = OK at its ACCEPT leaves. -/

namespace Sys2Proof.Machine

/-! ## A command that completes with CODE = OK at its ACCEPT (rules R31, R35) -/

/-- `post` over what ACCEPT left: the latches hold the command, no working register changes, the result is posted. -/
theorem exec_posted {i : Instr} {s : State} {r : Result}
    (hx : exec i s = .next ((s.accept i.opcode i.operands.1 i.operands.2.1 i.operands.2.2).post r))
    (hl : r.bytes.length ≤ 25) :
    ∃ t, exec i s = .next t ∧ t.latched i ∧ t.inputs = s.inputs ∧ s.sameWorking t ∧ t.posted r :=
  ⟨_, hx, s.accept_latched i, rfl, s.accept_sameWorking i.opcode i.operands.1 i.operands.2.1 i.operands.2.2,
    s.accept_post_posted _ _ _ _ r hl⟩

theorem execUnpack_eq (word b : Word) (c : Bool) (s : State) :
    execUnpack word b c s = .next ((s.accept Opcode.unpack word b c).post
      { rx := significandOf word, ry := exponentOf word, rz := signOf word }) := rfl

/-! ## The fields of every word are in PACK's range (rules R181, R182) -/

theorem exponentOf_le (word : Word) : (exponentOf word).toNat ≤ 255 := by
  rw [exponentOf_toNat]
  exact Nat.le_of_lt_succ (Nat.mod_lt _ (by decide))

theorem significandOf_lt (word : Word) : (significandOf word).toNat < 2 ^ 23 := by
  rw [significandOf_toNat]
  exact Nat.mod_lt _ (by decide)

/-- The shifted word is a single bit. -/
theorem signOf_getLsbD_zero_toNat (word : Word) : ((signOf word).getLsbD 0).toNat = (signOf word).toNat := by
  have hbit : (signOf word).toNat < 2 := by
    rw [signOf_toNat]
    exact Nat.div_lt_of_lt_mul word.isLt
  calc ((signOf word).getLsbD 0).toNat
      = (signOf word).toNat / 2 ^ 0 % 2 := getBit_toNat (signOf word) 0
    _ = (signOf word).toNat := by rw [pow_zero, Nat.div_one, Nat.mod_eq_of_lt hbit]

/-! ## Packing and unpacking undo each other (rule R184) -/

/-- Operands in PACK's range lose nothing when they are narrowed to the field widths. -/
theorem packFields_setWidth_toNat {e g : Word} (sign : Bool) (he : e.toNat ≤ 255) (hg : g.toNat < 2 ^ 23) :
    (packFields sign (e.setWidth 8) (g.setWidth 23)).toNat = sign.toNat * 2 ^ 31 + e.toNat * 2 ^ 23 + g.toNat := by
  rw [packFields_toNat, BitVec.toNat_setWidth, BitVec.toNat_setWidth, Nat.mod_eq_of_lt hg,
    Nat.mod_eq_of_lt (Nat.lt_succ_of_le he)]

/-- `word = word / 2^31 · 2^31 + word / 2^23 mod 2^8 · 2^23 + word mod 2^23`. -/
theorem packFields_of_fieldsOf (word : Word) :
    packFields ((signOf word).getLsbD 0) ((exponentOf word).setWidth 8) ((significandOf word).setWidth 23) = word := by
  apply BitVec.eq_of_toNat_eq
  rw [packFields_setWidth_toNat _ (exponentOf_le word) (significandOf_lt word), signOf_getLsbD_zero_toNat,
    signOf_toNat, exponentOf_toNat, significandOf_toNat]
  omega

section
variable {e g : Word} (sign : Bool) (he : e.toNat ≤ 255) (hg : g.toNat < 2 ^ 23)
include he hg

theorem significandOf_packFields : significandOf (packFields sign (e.setWidth 8) (g.setWidth 23)) = g := by
  apply BitVec.eq_of_toNat_eq
  rw [significandOf_toNat, packFields_setWidth_toNat sign he hg]
  omega

theorem exponentOf_packFields : exponentOf (packFields sign (e.setWidth 8) (g.setWidth 23)) = e := by
  apply BitVec.eq_of_toNat_eq
  rw [exponentOf_toNat, packFields_setWidth_toNat sign he hg]
  omega

theorem signOf_packFields_toNat :
    (signOf (packFields sign (e.setWidth 8) (g.setWidth 23))).toNat = sign.toNat := by
  rw [signOf_toNat, packFields_setWidth_toNat sign he hg]
  omega

end

end Sys2Proof.Machine
end

section
/-! The obligations of the packer and unpacker. -/

namespace Sys2Proof.Machine

/-- Settles O33: operands in range are packed whole, a field too wide is refused at ACCEPT. -/
theorem packInsertsTheFields : Obligations.PackInsertsTheFields := by
  refine fun e g sign s => ⟨fun ⟨he, hg⟩ => ?_, fun h => exec_failed (execPack_of_ge e g sign s h)⟩
  obtain ⟨t, hx, hlatched, hin, hworking, hposted⟩ :=
    exec_posted (i := .pack e g sign) (execPack_of_lt e g sign s he hg) (Nat.zero_le _)
  have hrx : t.rx = packFields sign (e.setWidth 8) (g.setWidth 23) := by
    obtain ⟨-, -, -, -, hrx, -⟩ := hposted
    exact hrx
  exact ⟨t, hx, hlatched, hin, hworking, hrx ▸ hposted, hrx ▸ packFields_setWidth_toNat sign he hg⟩

/-- Settles O34: the fields by masks and shifts are those by division. -/
theorem unpackExtractsTheFields : Obligations.UnpackExtractsTheFields := by
  intro word b c s
  rw [← significandOf_toNat, ← exponentOf_toNat, ← signOf_toNat]
  simp only [BitVec.ofNat_toNat, BitVec.setWidth_eq]
  exact exec_posted (i := .unpack word b c) (execUnpack_eq word b c s) (Nat.zero_le _)

/-- Settles O35: unpacked fields are in PACK's range and make up the word; packed ones are read back one by one. -/
theorem packAndUnpackAreInverse : Obligations.PackAndUnpackAreInverse :=
  ⟨fun word b c s => ⟨_, _, execUnpack_eq word b c s,
      execPack_of_lt _ _ _ _ (exponentOf_le word) (significandOf_lt word), rfl, packFields_of_fieldsOf word⟩,
    fun e g b sign c s he hg => ⟨_, _, execPack_of_lt e g sign s he hg, execUnpack_eq _ b c _, rfl,
      significandOf_packFields sign he hg, exponentOf_packFields sign he hg, signOf_packFields_toNat sign he hg⟩⟩

end Sys2Proof.Machine
end

section
/-! SUPPORT. Laws of the end-to-end operations: ENCODE from ACCEPT to its last pass, DECODE's string digit by digit, and
what DECODE gives of the word ENCODE packed. -/

namespace Sys2Proof.Machine

/-! ## ENCODE from ACCEPT to its last pass (rules R31 to R33, R190) -/

section
variable {s u : State} {a b : Word} {c : Bool} {str : List Byte} (hp : s.ph = .idle)
  (hu : u = s.scanned Opcode.encode a b c str)
include hp hu

/-- On an OK verdict END starts the extractor on the scanned pair. -/
theorem steps_encode_startIter (hv : parseVerdict u = .ok) :
    ∃ edge : Word, edge.toNat = 10 ^ u.dcnt.toNat ∧
      steps (str.length + 2) (s.facing (stringEdges (.encode a b c) str)) =
        .next (u.startIter u.dcnt u.num edge) := by
  subst hu
  obtain ⟨edge, hedge, hend⟩ := endOfEncodeString_of_ok hv (s.scanned_inv a b c (.inr (.inr rfl)) str).dcnt_le
  exact ⟨edge, hedge, steps_stringEdges hp (decodeCommand_encodeCommand _) (fun _ => rfl) rfl
    ((endOfString_encode (s.scanned_op ..)).trans hend)⟩

/-- The last pass posts the packed extraction over the latches and the empty buffer that ACCEPT left. -/
theorem steps_encode_post (hv : parseVerdict u = .ok) {x : Extraction} (hx : x = extractPair u.dcnt.toNat u.num.toNat) :
    ∃ v : State, v.latched (.encode a b c) ∧ v.inputs = [] ∧ v.obuf = [] ∧
      steps (str.length + 2 + x.exponent) (s.facing (stringEdges (.encode a b c) str)) =
        .next (v.post { rx := BitVec.ofNat 32 (x.exponent * 2 ^ 23 + x.significand.toNat), trunc := x.truncated }) := by
  obtain ⟨edge, hedge, hscan⟩ := steps_encode_startIter hp hu hv
  obtain ⟨hop, hopa, hopb, hopc, hin, -, -, hobuf, -⟩ := scanString_started s Opcode.encode a b c str
  have hinv := s.scanned_inv a b c (.inr (.inr rfl)) str
  rw [← State.scanned, ← hu] at hop hopa hopb hopc hin hobuf
  rw [← hu] at hinv
  obtain ⟨v, hstart, hrun⟩ := steps_startIter u.dcnt hinv.num_lt hedge (.inr hop) hin
  obtain ⟨hexp, hsig⟩ := extractPair_fits hinv.num_lt
  have hvop : v.op = Opcode.encode := by rw [hstart]; exact hop
  rw [← hx] at hrun hexp hsig
  refine ⟨v, ?_, by rw [hstart]; exact hin, by rw [hstart]; exact hobuf, ?_⟩
  · rw [hstart]; exact ⟨hop, hopa, hopb, hopc⟩
  · rw [steps_add _ _ hscan, hrun, finishIterations_encode hvop (by omega) hsig]

end

/-- The pair of rule R125 when the characters of `whole . frac` have been scanned. -/
theorem State.scanned_decimal_pair (s : State) (op : BitVec 4) (a b : Word) (c : Bool) {whole frac : List Byte}
    (hw : AllDigits whole) (hf : AllDigits frac) (hl : frac.length ≤ 9) :
    (s.scanned op a b c (decimalString whole frac)).dcnt.toNat = frac.length ∧
      (s.scanned op a b c (decimalString whole frac)).num.toNat = digitsValue frac := by
  obtain ⟨-, -, -, hpair⟩ := scanString_decimal hw hf (t := (s.accept op a b c).startScan) rfl rfl rfl rfl rfl
  obtain ⟨hd, hn⟩ := hpair hl
  have hlt : digitsValue frac < 10 ^ 9 :=
    (digitsValue_lt frac hf).trans_le (Nat.pow_le_pow_right (by decide) hl)
  exact ⟨(congrArg BitVec.toNat hd).trans (ofNat_toNat_of_lt (by omega)),
    (congrArg BitVec.toNat hn).trans (ofNat_toNat_of_lt (by omega))⟩

theorem steps_encode_failed {s : State} (hp : s.ph = .idle) {a b : Word} {c : Bool} {str : List Byte} {k : Code}
    (hk : k ≠ .ok) (hv : parseVerdict (s.scanned Opcode.encode a b c str) = k) :
    ∃ t, steps (str.length + 2) (s.facing (stringEdges (.encode a b c) str)) = .next t ∧
      t.latched (.encode a b c) ∧ t.inputs = [] ∧ s.sameExtractor t ∧ t.failed k := by
  subst hv
  obtain ⟨hlatched, hin, hext⟩ := s.scanned_complete Opcode.encode a b c str _ {}
  rw [State.complete_of_ne _ _ hk] at hlatched hin hext
  exact ⟨_, steps_encode_of_failure hp a b c str rfl hk, hlatched, hin, hext,
    State.raise_failed _ _ (s.scanned_cleared ..)⟩

theorem steps_encode_decimal_posted {s : State} (hp : s.ph = .idle) (a b : Word) (c : Bool) {whole frac : List Byte}
    (hw : AllDigits whole) (hf : AllDigits frac) (h1 : 1 ≤ frac.length) (h9 : frac.length ≤ 9) :
    ∃ k t, PassCount frac.length (digitsValue frac) k ∧
      steps ((decimalString whole frac).length + 2 + k)
        (s.facing (stringEdges (.encode a b c) (decimalString whole frac))) = .next t ∧
      t.latched (.encode a b c) ∧ t.inputs = [] ∧
      t.posted
        { rx := BitVec.ofNat 32 (k * 2 ^ 23 + digitsValue frac * 2 ^ k / 10 ^ frac.length),
          trunc := decide (digitsValue frac * 2 ^ k % 10 ^ frac.length ≠ 0) } := by
  obtain ⟨-, -, hdecimal⟩ := parseVerdict_scanString (decimalString whole frac)
    (t := (s.accept Opcode.encode a b c).startScan) rfl rfl rfl rfl rfl
  obtain ⟨-, -, hok⟩ := hdecimal whole frac hw hf rfl
  obtain ⟨hd, hn⟩ := s.scanned_decimal_pair Opcode.encode a b c hw hf h9
  obtain ⟨v, hlatched, hin, hobuf, hrun⟩ := steps_encode_post hp rfl (hok h1 h9) rfl
  rw [hd, hn] at hrun
  obtain ⟨k, hk, hexp, hsig, htrunc⟩ := extractPair_spec (digitsValue_lt frac hf)
  rw [hexp, hsig, htrunc] at hrun
  exact ⟨k, _, hk, hrun, hlatched, hin, State.post_posted_of_empty hobuf _ (Nat.zero_le _)⟩

/-! ## DECODE by the fields of its word (rules R194, R195, R200) -/

/-- Neither field that DECODE reads has bit 31 in it. -/
theorem decodeString_clearSign (word : Word) : decodeString (word &&& 0x7FFFFFFF#32) = decodeString word := by
  have he : exponentOf (word &&& 0x7FFFFFFF#32) = exponentOf word := by
    rw [exponentOf, BitVec.and_assoc, BitVec.and_self, exponentOf]
  have hg : significandOf (word &&& 0x7FFFFFFF#32) = significandOf word := by
    rw [significandOf, BitVec.and_assoc, significandOf]; rfl
  rw [decodeString, he, hg, decodeString]

section
variable {word : Word} {e g : Nat} (he : e = word.toNat / 2 ^ 23 % 2 ^ 8) (hg : g = word.toNat % 2 ^ 23)
  (b : Word) (c : Bool) (s : State)
include he

theorem exec_decode_failed (h : e = 0 ∨ 24 ≤ e) : ∃ t, exec (.decode word b c) s = .next t ∧
    t.latched (.decode word b c) ∧ t.inputs = s.inputs ∧ s.sameWorking t ∧ t.failed .unsupportedExponent := by
  subst he
  exact exec_failed (execDecode_of_none (decodeString_of_not_mem h))

include hg

theorem exec_decode_posted (h1 : 1 ≤ e) (h2 : e ≤ 23) : ∃ t, exec (.decode word b c) s = .next t ∧
    t.latched (.decode word b c) ∧ t.inputs = s.inputs ∧ s.sameWorking t ∧
    t.posted { bytes := fractionString e (5 ^ e * g) } := by
  subst he hg
  have hstr := decodeString_of_mem h1 h2
  obtain ⟨-, hlen⟩ := decodeString_length hstr
  exact exec_posted (execDecode_of_some hstr) hlen

/-- CODE = OK after DECODE means that the exponent has an entry in the ROM, and that the product was rendered. -/
theorem posted_of_exec_decode_ok {b : Word} {c : Bool} {s t : State} (hx : exec (.decode word b c) s = .next t)
    (hok : t.code = .ok) :
    1 ≤ e ∧ e ≤ 23 ∧ t.posted { bytes := fractionString e (5 ^ e * g) } := by
  by_cases h : 1 ≤ e ∧ e ≤ 23
  · obtain ⟨h1, h2⟩ := h
    obtain ⟨t', hx', -, -, -, hposted⟩ := exec_decode_posted he hg b c s h1 h2
    obtain rfl := Host.Outcome.next.inj (hx.symm.trans hx')
    exact ⟨h1, h2, hposted⟩
  · obtain ⟨t', hx', -, -, -, -, -, hcode, -⟩ := exec_decode_failed he b c s (by omega)
    obtain rfl := Host.Outcome.next.inj (hx.symm.trans hx')
    rw [hok] at hcode
    cases hcode

end

/-! ## The digits of a string posted or read (rules R122, R195) -/

theorem State.posted.olen {t : State} {r : Result} (h : t.posted r) : t.olen.toNat = r.bytes.length := by
  obtain ⟨-, -, -, -, -, -, -, -, holen, -⟩ := h
  exact holen

theorem allDigits_append {f g : List Byte} (hf : AllDigits f) (hg : AllDigits g) : AllDigits (f ++ g) :=
  fun x hx => (List.mem_append.mp hx).elim (hf x) (hg x)

theorem allDigits_zeros (z : Nat) : AllDigits (List.replicate z 0x30#8) := fun x hx => by
  rw [List.eq_of_mem_replicate hx]
  decide

/-- A number below `10^w` is rendered as the one string of `w` digits that stands for it. -/
theorem fractionString_digits {w p : Nat} (hw : 1 ≤ w) (h : p < 10 ^ w) :
    ∃ digits, fractionString w p = 0x30#8 :: 0x2E#8 :: digits ∧ AllDigits digits ∧ digits.length = w ∧
      digitsValue digits = p := by
  have hlen := fractionString_length_of_lt hw h
  refine ⟨_, rfl, allDigits_append (allDigits_zeros _) (asciiNumeral_allDigits p), ?_, ?_⟩
  · rw [fractionString, List.length_cons, List.length_cons] at hlen
    omega
  · rw [digitsValue_replicate_append, digitsValue_asciiNumeral]

/-- Digits hold no point, so a string with its point after one byte has its fraction there. -/
theorem eq_of_decimalString_eq {whole frac digits : List Byte} (hw : AllDigits whole) {x : Byte} (hx : x ≠ 0x2E#8)
    (h : decimalString whole frac = x :: 0x2E#8 :: digits) : frac = digits := by
  match whole with
  | [] => exact absurd (List.cons.inj h).1.symm hx
  | [_] => exact (List.cons.inj (List.cons.inj h).2).2
  | _ :: y :: _ =>
    have hy : y = 0x2E#8 := (List.cons.inj (List.cons.inj h).2).1
    exact absurd (hw y (by simp)) (by rw [hy]; decide)

theorem digitsValue_append_zeros (f : List Byte) (z : Nat) :
    digitsValue (f ++ List.replicate z 0x30#8) = digitsValue f * 10 ^ z := by
  have hzeros : digitsValue (List.replicate z 0x30#8) = 0 := by
    simpa [digitsValue] using digitsValue_replicate_append z []
  rw [digitsValue_append_list, hzeros, List.length_replicate, Nat.add_zero]

theorem dropTrailingZeros_append_zeros (f : List Byte) (z : Nat) :
    dropTrailingZeros (f ++ List.replicate z 0x30#8) = dropTrailingZeros f := by
  induction z with
  | zero => rw [List.replicate_zero, List.append_nil]
  | succ z ih =>
    rw [List.replicate_succ', ← List.append_assoc, ← ih]
    simp [dropTrailingZeros]

/-- A digit string whose number 10 does not divide has no trailing zero to drop. -/
theorem dropTrailingZeros_eq_self {f : List Byte} (h : ¬10 ∣ digitsValue f) : dropTrailingZeros f = f := by
  obtain ⟨z, hf, -⟩ := dropTrailingZeros_append f
  cases z with
  | zero => simpa using hf.symm
  | succ z =>
    rw [hf, digitsValue_append_zeros, pow_succ] at h
    exact absurd (Dvd.intro_left _ (Nat.mul_assoc _ _ _)) h

/-! ## DECODE of an encoded fraction (rules R201, R202) -/

/-- The word ENCODE packs after `k` passes, taken apart again. -/
theorem encodedWord_fields {word : Word} {k q : Nat} (hword : word = BitVec.ofNat 32 (k * 2 ^ 23 + q)) (hk : k ≤ 23)
    (hq : q < 2 ^ 23) : k = word.toNat / 2 ^ 23 % 2 ^ 8 ∧ q = word.toNat % 2 ^ 23 := by
  rw [hword, ofNat_toNat_of_lt (by omega)]
  omega

/-- The exact fraction is not doubled once more than it needs: after two passes or more its last binary digit is 1. -/
theorem PassCount.eq_one_of_even {d n k q : Nat} (hk : PassCount d n k) (hn : n * 2 ^ k = 10 ^ d * q) (hq : 2 ∣ q) :
    k = 1 := by
  obtain ⟨h1, -, hleast, -⟩ := hk
  by_contra hne
  obtain ⟨j, rfl⟩ : ∃ j, k = j + 1 := ⟨k - 1, by omega⟩
  obtain ⟨m, rfl⟩ := hq
  have hj : n * 2 ^ j = 10 ^ d * m := by
    rw [pow_succ] at hn
    linarith
  exact hleast j (by omega) (by omega) (by rw [hj, Nat.mul_mod_right])

/-- ENCODE of `whole . frac` and DECODE of its word: the `k` binary digits of the truncated fraction, as `k` decimal
digits. -/
theorem encode_decode_posted {s : State} (hp : s.ph = .idle) (a b : Word) (c : Bool) (b' : Word) (c' : Bool)
    {whole frac : List Byte} (hw : AllDigits whole) (hf : AllDigits frac) (h1 : 1 ≤ frac.length)
    (h9 : frac.length ≤ 9) :
    ∃ k t u digits, PassCount frac.length (digitsValue frac) k ∧
      steps ((decimalString whole frac).length + 2 + k)
        (s.facing (stringEdges (.encode a b c) (decimalString whole frac))) = .next t ∧
      t.done = true ∧ t.trunc = decide (digitsValue frac * 2 ^ k % 10 ^ frac.length ≠ 0) ∧
      exec (.decode t.rx b' c') t = .next u ∧ u.posted { bytes := 0x30#8 :: 0x2E#8 :: digits } ∧
      AllDigits digits ∧ digits.length = k ∧
      digitsValue digits = 5 ^ k * (digitsValue frac * 2 ^ k / 10 ^ frac.length) := by
  obtain ⟨k, t, hk, hrun, -, -, -, hdone, -, htrunc, hrx, -⟩ := steps_encode_decimal_posted hp a b c hw hf h1 h9
  have ⟨hpos, h23, _⟩ := hk
  have hq := truncatedFraction_lt (digitsValue_lt frac hf) k
  have hcap : 2 ^ k ≤ 2 ^ 23 := Nat.pow_le_pow_right (by decide) h23
  obtain ⟨he, hg⟩ := encodedWord_fields hrx h23 (hq.trans_le hcap)
  obtain ⟨u, hdecode, -, -, -, hposted⟩ := exec_decode_posted he hg b' c' t hpos h23
  obtain ⟨digits, hstr, hdigits, hlen, hvalue⟩ := fractionString_digits hpos (product_lt_of_lt hq)
  rw [hstr] at hposted
  exact ⟨k, t, u, digits, hk, hrun, hdone, htrunc, hdecode, hposted, hdigits, hlen, hvalue⟩

section
variable {frac digits : List Byte} {k q : Nat} (hq : digitsValue frac * 2 ^ k = 10 ^ frac.length * q)
  (hdigits : AllDigits digits) (hlen : digits.length = k) (hvalue : digitsValue digits = 5 ^ k * q)
include hq hdigits hlen hvalue

/-- An exact fraction of `k` binary digits: `5^k · n · 2^k / 10^d = n / 10^(d−k)`, the first `k` digits of `frac`. -/
theorem frac_eq_digits_append_zeros (hf : AllDigits frac) (hle : k ≤ frac.length) :
    ∃ z, frac = digits ++ List.replicate z 0x30#8 := by
  obtain ⟨z, hz⟩ := Nat.exists_eq_add_of_le hle
  have hn : digitsValue frac = digitsValue digits * 10 ^ z := by
    refine Nat.eq_of_mul_eq_mul_right (Nat.pow_pos (n := k) two_pos) ?_
    calc digitsValue frac * 2 ^ k = (5 * 2) ^ (k + z) * q := by rw [hq, hz]
      _ = 5 ^ k * q * 10 ^ z * 2 ^ k := by rw [pow_add, Nat.mul_pow]; ring
      _ = digitsValue digits * 10 ^ z * 2 ^ k := by rw [hvalue]
  refine ⟨z, allDigits_inj hf (allDigits_append hdigits (allDigits_zeros z)) ?_ ?_⟩
  · rw [List.length_append, List.length_replicate, hlen, hz]
  · rw [digitsValue_append_zeros, hn]

/-- Those `k` digits end in another digit than 0, or are the one digit 0. -/
theorem digits_without_trailingZeros (hk : PassCount frac.length (digitsValue frac) k) :
    digits = if dropTrailingZeros digits = [] then [0x30#8] else dropTrailingZeros digits := by
  by_cases hlast : 10 ∣ digitsValue digits
  · have hcoprime : Nat.Coprime 2 (5 ^ k) := Nat.Coprime.pow_right k (by decide)
    have heven : 2 ∣ q := hcoprime.dvd_of_dvd_mul_left (hvalue ▸ (by decide : 2 ∣ 10).trans hlast)
    obtain rfl := hk.eq_one_of_even hq heven
    have hlt := digitsValue_lt digits hdigits
    rw [hlen, pow_one] at hlt
    have hzero : digits = [0x30#8] :=
      allDigits_inj hdigits (by simp [AllDigits]) hlen (Nat.eq_zero_of_dvd_of_lt hlast hlt)
    rw [hzero]
    rfl
  · have hne : digits ≠ [] := fun h => hlast (by rw [h]; exact dvd_zero 10)
    rw [dropTrailingZeros_eq_self hlast, if_neg hne]

end

/-- A fraction truncated to 23 binary digits is below the fraction, and by less than the last digit's `2^−23`. -/
theorem truncated_bounds {d n : Nat} (h : n * 2 ^ 23 % 10 ^ d ≠ 0) :
    5 ^ 23 * (n * 2 ^ 23 / 10 ^ d) * 10 ^ d < n * 10 ^ 23 ∧
      n * 10 ^ 23 < (5 ^ 23 * (n * 2 ^ 23 / 10 ^ d) + 5 ^ 23) * 10 ^ d := by
  have hdiv := Nat.div_add_mod' (n * 2 ^ 23) (10 ^ d)
  have hmod := Nat.mod_lt (n * 2 ^ 23) (Nat.pow_pos (n := d) (by decide : 0 < 10))
  have hdown : n * 2 ^ 23 / 10 ^ d * 10 ^ d < n * 2 ^ 23 := by omega
  have hup : n * 2 ^ 23 < (n * 2 ^ 23 / 10 ^ d + 1) * 10 ^ d := by rw [Nat.add_mul]; omega
  have hn : n * 10 ^ 23 = 5 ^ 23 * (n * 2 ^ 23) := by ring
  rw [hn, ← Nat.mul_succ, Nat.mul_assoc, Nat.mul_assoc]
  exact ⟨Nat.mul_lt_mul_of_pos_left hdown (by decide), Nat.mul_lt_mul_of_pos_left hup (by decide)⟩

end Sys2Proof.Machine
end

section
/-! The obligations of the end-to-end operations. -/

namespace Sys2Proof.Machine

/-- Settles O36: the verdict by the shape of the string; on an OK verdict the extraction's closed form, packed. -/
theorem encodePacksTheTruncatedFraction : Obligations.EncodePacksTheTruncatedFraction := by
  intro a b c str s hp
  obtain ⟨hinvalid, hnopoint, hdecimal⟩ :=
    parseVerdict_scanString str (t := (s.accept Opcode.encode a b c).startScan) rfl rfl rfl rfl rfl
  refine ⟨fun v hv => ?_, fun whole frac hw hf hstr h1 h9 => ?_⟩
  · rcases hv with ⟨hbad | hnone | ⟨whole, hw, hstr⟩, rfl⟩ | ⟨⟨whole, frac, hw, hf, hstr, hlong⟩, rfl⟩
    · exact steps_encode_failed hp (by decide) (hinvalid hbad)
    · exact steps_encode_failed hp (by decide) (hnopoint hnone)
    · obtain ⟨hempty, -⟩ := hdecimal whole [] hw (by simp [AllDigits]) hstr
      exact steps_encode_failed hp (by decide) (hempty rfl)
    · obtain ⟨-, hverdict, -⟩ := hdecimal whole frac hw hf hstr
      exact steps_encode_failed hp (by decide) (hverdict hlong)
  · subst hstr
    exact steps_encode_decimal_posted hp a b c hw hf h1 h9

/-- Settles O37: the exponent has an entry in the ROM, or DECODE is refused at ACCEPT. -/
theorem decodeRendersTheProduct : Obligations.DecodeRendersTheProduct := fun _ b c s _ _ he hg =>
  ⟨fun ⟨h1, h2⟩ => exec_decode_posted he hg b c s h1 h2, exec_decode_failed he b c s⟩

/-- Settles O38: the product is below `10^23`, and below `10^e` for a significand below `2^e`. -/
theorem decodeFillsAtMostTheBuffer : Obligations.DecodeFillsAtMostTheBuffer := by
  intro word b c s t hx hok
  obtain ⟨h1, h2, hposted⟩ := posted_of_exec_decode_ok rfl rfl hx hok
  have hprod := product_lt h2 (Nat.mod_lt word.toNat (Nat.pow_pos (n := 23) two_pos))
  rw [hposted.olen]
  exact ⟨fractionString_length_ge _ _, fractionString_length_le (by decide) h2 hprod,
    fun hg => fractionString_length_of_lt h1 (product_lt_of_lt hg)⟩

/-- Settles O39: both words have the same string, or none; only ACCEPT's latch OPA tells them apart. -/
theorem decodeIgnoresTheSignBit : Obligations.DecodeIgnoresTheSignBit := by
  intro word b c s
  cases h : decodeString word with
  | some bytes => exact ⟨_, execDecode_of_some h, execDecode_of_some ((decodeString_clearSign word).trans h)⟩
  | none => exact ⟨_, execDecode_of_none h, execDecode_of_none ((decodeString_clearSign word).trans h)⟩

/-- Settles O40: the digits stand for `5^e · g`, and `5^e · g · 2^e = g · 10^e`. -/
theorem decodeIsExact : Obligations.DecodeIsExact := by
  intro word b c s t hx hok hg
  obtain ⟨h1, -, hposted⟩ := posted_of_exec_decode_ok rfl rfl hx hok
  obtain ⟨digits, hstr, hdigits, hlen, hvalue⟩ := fractionString_digits h1 (product_lt_of_lt hg)
  refine ⟨digits, hposted.outputString.trans hstr, hdigits, ?_⟩
  rw [hvalue, hlen, show 10 = 5 * 2 from rfl, Nat.mul_pow]
  ring

/-- Settles O41: TRUNC = 0 says that `10^d` divides at the last pass; then DECODE's digits and `frac` differ by trailing
zeros only, and DECODE's have none but the digit 0 of an all-zero `frac`. -/
theorem exactRoundTrip : Obligations.ExactRoundTrip := by
  intro a b c b' c' whole frac s hp hw hf h1 h9
  obtain ⟨k, t, u, digits, hk, hrun, hdone, htrunc, hdecode, hposted, hdigits, hlen, hvalue⟩ :=
    encode_decode_posted hp a b c b' c' hw hf h1 h9
  have ⟨_, h23, _⟩ := hk
  have ⟨_, _, hcode, _⟩ := hposted
  refine ⟨k, t, u, h23, hrun, hdone, hdecode, hcode, fun h => ?_⟩
  rw [htrunc, decide_eq_false_iff_not, not_not] at h
  have hdvd := Nat.dvd_of_mod_eq_zero h
  have hle := hk.le_of_five_pow_dvd h1 ((hk.ten_pow_dvd_iff h1 h9).mp hdvd)
  obtain ⟨q, hq⟩ := hdvd
  rw [hq, Nat.mul_div_cancel_left q (by positivity)] at hvalue
  obtain ⟨z, hz⟩ := frac_eq_digits_append_zeros hq hdigits hlen hvalue hf hle
  have hdrop : dropTrailingZeros frac = dropTrailingZeros digits := by rw [hz, dropTrailingZeros_append_zeros]
  rw [hposted.outputString, hdrop, ← digits_without_trailingZeros hq hdigits hlen hvalue hk]

/-- Settles O42: TRUNC = 1 says that the 23rd pass leaves a remainder, which is what the digits are below the input. -/
theorem truncatedRoundTrip : Obligations.TruncatedRoundTrip := by
  intro a b c b' c' whole frac s hp hw hf h1 h9
  obtain ⟨k, t, u, digits, hk, hrun, hdone, htrunc, hdecode, hposted, hdigits, hlen, hvalue⟩ :=
    encode_decode_posted hp a b c b' c' hw hf h1 h9
  obtain ⟨-, h23, -, hend⟩ := hk
  have ⟨_, _, hcode, _⟩ := hposted
  refine ⟨k, t, u, h23, hrun, hdone, hdecode, hcode, fun h => ?_⟩
  rw [htrunc, decide_eq_true_eq] at h
  obtain rfl : k = 23 := hend.resolve_left h
  refine ⟨BitVec.eq_of_toNat_eq ?olen, fun heq => ?differs, digits, hposted.outputString, hdigits, hlen,
    hvalue ▸ truncated_bounds h⟩
  case olen => rw [hposted.olen, List.length_cons, List.length_cons, hlen]; rfl
  case differs =>
    have hfrac := eq_of_decimalString_eq hw (by decide) (heq.symm.trans hposted.outputString)
    rw [hfrac] at h9
    omega

end Sys2Proof.Machine
end

section
/-! SUPPORT. Laws of the exceptions family: what END and an ITER pass can do, and what ACCEPT, SYMBOL and ITER leave in
TRUNC and CODE. -/

namespace Sys2Proof.Machine

/-! ## ACCEPT (rules R31, R224) -/

/-- ACCEPT clears TRUNC, and no command's own ACCEPT sets it again. -/
theorem exec_trunc {i : Instr} {s t : State} (ht : exec i s = .next t) : t.trunc = false := by
  rcases exec_cases i s with ⟨r, -, hr, hx⟩ | ⟨k, -, hx⟩ | ⟨hx, -⟩ | ⟨d, n, c, edge, -, -, -, -, hx⟩
  all_goals
    rw [hx, Host.Outcome.next.injEq] at ht
    subst ht
  · exact hr
  all_goals rfl

/-- One outcome has one CODE, however its state is written. -/
theorem code_of_next {o : Host.Outcome State Fault Refusal} {t u : State} (ht : o = .next t) (hu : o = .next u) :
    t.code = u.code :=
  congrArg State.code (Host.Outcome.next.inj (ht.symm.trans hu))

/-! ## SYMBOL (rules R32, R123) -/

@[simp] theorem parserUpdate_trunc (b : Byte) (s : State) : (parserUpdate b s).trunc = s.trunc := by
  rw [parserUpdate_frame]

@[simp] theorem parserUpdate_done (b : Byte) (s : State) : (parserUpdate b s).done = s.done := by
  rw [parserUpdate_frame]

theorem parseVerdict_of_ne_ok {s : State} (h : parseVerdict s ≠ .ok) :
    parseVerdict s = .invalidInput ∨ parseVerdict s = .fracTooLong := by
  rw [parseVerdict_eq] at h ⊢
  split_ifs at h ⊢ <;> simp at h ⊢

/-- Everything END can do: VALIDATE and PARSE post a result without TRUNC, PARSE and ENCODE raise a verdict that is
not OK, ENCODE starts the extractor. -/
theorem endOfString_cases {s t : State} (h : endOfString s = .next t) :
    ((s.op = Opcode.validate ∨ s.op = Opcode.parse) ∧ ∃ r : Result, r.trunc = false ∧ t = s.post r) ∨
    ((s.op = Opcode.parse ∨ s.op = Opcode.encode) ∧ parseVerdict s ≠ .ok ∧ t = s.raise (parseVerdict s)) ∨
    (s.op = Opcode.encode ∧ parseVerdict s = .ok ∧ ∃ edge, t = s.startIter s.dcnt s.num edge) := by
  by_cases hvalidate : s.op = Opcode.validate
  · rw [endOfString_validate hvalidate] at h
    cases h
    exact .inl ⟨.inl hvalidate, _, rfl, rfl⟩
  by_cases hparse : s.op = Opcode.parse
  · rw [endOfString_parse hparse, finishParse, State.complete] at h
    split at h
    · cases h
      exact .inl ⟨.inr hparse, _, rfl, rfl⟩
    next hv =>
      cases h
      exact .inr (.inl ⟨.inl hparse, hv, rfl⟩)
  by_cases hencode : s.op = Opcode.encode
  · rw [endOfString_encode hencode, endOfEncodeString] at h
    split at h
    next hv =>
      split at h
      · cases h
        exact .inr (.inr ⟨hencode, hv, _, rfl⟩)
      · cases h
    next hv =>
      cases h
      exact .inr (.inl ⟨.inr hencode, hv, rfl⟩)
  · rw [endOfString, if_neg hvalidate, if_neg hparse, if_neg hencode] at h
    cases h

/-- SYMBOL never sets TRUNC. -/
theorem stepSymbol_trunc {sym : Symbol} {s t : State} (h : stepSymbol sym s = .next t) (hs : s.trunc = false) :
    t.trunc = false := by
  cases sym with
  | ch b =>
    cases h
    rwa [parserUpdate_trunc]
  | endOfString =>
    rcases endOfString_cases h with ⟨-, r, hr, rfl⟩ | ⟨-, -, rfl⟩ | ⟨-, -, edge, rfl⟩
    · exact hr
    · exact hs
    · exact hs

/-- The codes END can complete each string operation with (rule R220). -/
theorem endOfString_code {s t : State} (h : endOfString s = .next t) (hs : s.done = false) (ht : t.done = true) :
    (s.op = Opcode.validate → t.code = .ok) ∧
    (s.op = Opcode.parse → t.code = .ok ∨ t.code = .invalidInput ∨ t.code = .fracTooLong) ∧
    (s.op = Opcode.encode → t.code = .invalidInput ∨ t.code = .fracTooLong) := by
  rcases endOfString_cases h with ⟨ho, r, -, rfl⟩ | ⟨ho, hv, rfl⟩ | ⟨-, -, edge, rfl⟩
  · refine ⟨fun _ => rfl, fun _ => .inl rfl, fun hencode => ?_⟩
    rw [hencode] at ho
    exact absurd ho (by decide)
  · refine ⟨fun hvalidate => ?_, fun _ => .inr (parseVerdict_of_ne_ok hv), fun _ => parseVerdict_of_ne_ok hv⟩
    rw [hvalidate] at ho
    exact absurd ho (by decide)
  · cases hs.symm.trans ht

/-! ## ITER (rule R33) -/

/-- Everything an ITER pass can do: go on, or post the result of EXTRACT or ENCODE. -/
theorem stepIter_cases {s t : State} (h : stepIter s = .next t) :
    t = s.recordDigit.nextPosition ∨
    ((s.op = Opcode.extract ∨ s.op = Opcode.encode) ∧ ∃ r, t = s.recordDigit.post r) := by
  cases hl : lastIteration s.pos.toNat (doublingRem s.edge.toNat s.rem.toNat) with
  | false =>
    rw [stepIter_more hl, Host.Outcome.next.injEq] at h
    exact .inl h.symm
  | true =>
    by_cases ho : s.op = Opcode.extract ∨ s.op = Opcode.encode
    · rw [stepIter_last ho hl, Host.Outcome.next.injEq] at h
      obtain ⟨r, hr⟩ := finishIterations_eq_post _ _
      exact .inr ⟨ho, r, h.symm.trans hr⟩
    · obtain ⟨hextract, hencode⟩ := not_or.mp ho
      simp only [stepIter, hl, hextract, hencode, if_true, if_false] at h
      cases h

/-! ## One edge (rule R224) -/

/-- No edge sets TRUNC but an ITER pass that posts the result of EXTRACT or ENCODE. -/
theorem step_trunc {s t : State} (h : step s = .next t) (hs : s.trunc = false) :
    t.trunc = false ∨
    (s.ph = .iter ∧ t.ph = .idle ∧ t.code = .ok ∧ (s.op = Opcode.extract ∨ s.op = Opcode.encode)) := by
  rcases step_cases s with ⟨-, hx⟩ | ⟨-, ⟨-, w, -, hx⟩ | ⟨-, w, -, hx⟩ | ⟨hp, hx⟩ | ⟨-, hx⟩⟩
  all_goals rw [hx] at h
  · cases h
    exact .inl rfl
  · exact .inl (exec_trunc h)
  · exact .inl (stepSymbol_trunc h hs)
  · rcases stepIter_cases h with rfl | ⟨ho, r, rfl⟩
    · exact .inl hs
    · exact .inr ⟨hp, rfl, rfl, ho⟩
  · cases h
    exact .inl hs

end Sys2Proof.Machine
end

section
/-! The obligations of the exceptions family. -/

namespace Sys2Proof.Machine

/-- Settles O13: the step that keeps the invariant answers a state. -/
theorem noEdgeStopsTheCore : Obligations.NoEdgeStopsTheCore := fun _ h =>
  let ⟨t, ht, _⟩ := h.step
  ⟨t, ht⟩

/-- Settles O52: `step_trunc` for an edge; ACCEPT clears TRUNC (`exec_trunc`). -/
theorem truncComesOnlyFromTheExtractor : Obligations.TruncComesOnlyFromTheExtractor := by
  refine ⟨fun s t h ht hs => (step_trunc h hs).resolve_left (by simp [ht]), fun i s => ?_⟩
  obtain ⟨t, ht⟩ := exec_answers i s
  exact ⟨t, ht, exec_trunc ht⟩

/-- Settles O53: at ACCEPT by each command's own branches, at END by `endOfString_cases`, in ITER by
`stepIter_cases`. -/
theorem codesHaveTheListedCauses : Obligations.CodesHaveTheListedCauses := by
  refine ⟨fun i s t ht hd => ?accept, fun s t hp h hr ht hd => ?symbol, fun s t hp h hr ht => ?iter⟩
  case accept =>
    cases i with
    | setbit w n v =>
      rcases Nat.lt_or_ge n.toNat 32 with hn | hn
      · exact .inl (code_of_next ht (execSetbit_of_lt w n v s hn))
      · exact .inr (code_of_next ht (execSetbit_of_ge w n v s hn))
    | getbit w n c =>
      rcases Nat.lt_or_ge n.toNat 32 with hn | hn
      · exact .inl (code_of_next ht (execGetbit_of_lt w n c s hn))
      · exact .inr (code_of_next ht (execGetbit_of_ge w n c s hn))
    | revlow w n c =>
      rcases Nat.lt_or_ge 32 n.toNat with hn | hn
      · exact .inr (code_of_next ht (execRevlow_of_gt w n c s hn))
      · exact .inl (code_of_next ht (execRevlow_of_le w n c s hn))
    | pack e g sign =>
      by_cases hr : e.toNat ≤ 255 ∧ g.toNat < 2 ^ 23
      · exact .inl (code_of_next ht (execPack_of_lt e g sign s hr.1 hr.2))
      · exact .inr (code_of_next ht (execPack_of_ge e g sign s (by omega)))
    | lookup e b c =>
      cases hrom : romRead e with
      | some entry => exact .inl (code_of_next ht (execLookup_of_some hrom))
      | none => exact .inr (code_of_next ht (execLookup_of_none hrom))
    | decode w b c =>
      cases hstr : decodeString w with
      | some bytes => exact .inl (code_of_next ht (execDecode_of_some hstr))
      | none => exact .inr (code_of_next ht (execDecode_of_none hstr))
    | extract d n c =>
      by_cases hr : d.toNat ≤ 9 ∧ n.toNat < 10 ^ d.toNat
      · obtain ⟨edge, -, hx⟩ := execExtract_of_lt d n c s hr.1 hr.2
        obtain rfl := Host.Outcome.next.inj (hx.symm.trans ht)
        cases hd
      · exact code_of_next ht (execExtract_of_ge d n c s (by omega))
    | unpack w b c => exact code_of_next ht (execUnpack_eq w b c s)
    | validate | parse | encode => cases ht; cases hd
    | reserved0 | reservedC | reservedD | reservedE | reservedF => cases ht; rfl
  case symbol =>
    obtain ⟨hbusy, -⟩ := h.cleared (by simp [hp])
    cases hw : s.presented.sym with
    | none =>
      rw [step_scan_quiet hr hp hw] at ht
      cases ht
      cases hbusy.symm.trans hd
    | some w =>
      rw [step_scan_symbol hr hp hw] at ht
      cases hsym : decodeSymbol w with
      | ch b =>
        rw [hsym] at ht
        cases ht
        rw [parserUpdate_done] at hd
        cases hbusy.symm.trans hd
      | endOfString =>
        rw [hsym] at ht
        exact endOfString_code (s := s.advanceInputs) ht hbusy hd
  case iter =>
    rw [step_iter hr hp] at ht
    rcases stepIter_cases ht with rfl | ⟨-, r, rfl⟩
    · obtain ⟨hok, -⟩ := h.busy_absent (by simp [hp])
      exact hok
    · rfl

end Sys2Proof.Machine
end

section
/-! SUPPORT. Laws of the reset and hazards family: what reset leaves, which ports an edge reads, and the edges of a core
that waits or scans. -/

namespace Sys2Proof.Machine

/-! ## Reset (rule R250) -/

theorem State.resetRegisters_cleared (s : State) : s.resetRegisters.cleared :=
  ⟨rfl, rfl, rfl, rfl, rfl, rfl, rfl, rfl, fun _ => rfl⟩

/-! ## What an edge reads of the ports (rules R34, R255, R256) -/

/-- What holds of every coming edge and of an edge at which nothing is presented holds of the next one. -/
theorem State.presented_of_forall {s : State} {P : HostInput → Prop} (h₀ : P {}) (h : ∀ e ∈ s.inputs, P e) :
    P s.presented := by
  unfold State.presented
  split
  · exact h₀
  · next hi => exact h _ (by simp [hi])

/-- An edge reads the command port in IDLE only and the symbol port in SCAN only. -/
theorem step_facing_congr {s : State} {e e' : HostInput} (rest : List HostInput) (hr : e.rst = e'.rst)
    (hc : s.ph = .idle → e.cmd = e'.cmd) (hs : s.ph = .scan → e.sym = e'.sym) :
    step (s.facing (e :: rest)) = step (s.facing (e' :: rest)) := by
  rcases step_cases (s.facing (e' :: rest)) with
    ⟨hrst, hx⟩ | ⟨hrst, ⟨hp, w, hw, hx⟩ | ⟨hp, w, hw, hx⟩ | ⟨hp, hx⟩ | ⟨⟨hp, hn⟩ | ⟨hp, hn⟩, hx⟩⟩
  all_goals
    rw [hx]
    have hrst' := hr.trans hrst
  · exact step_of_rst hrst'
  · exact step_idle_command hrst' hp ((hc hp).trans hw)
  · exact step_scan_symbol hrst' hp ((hs hp).trans hw)
  · exact step_iter hrst' hp
  · exact step_idle_quiet hrst' hp ((hc hp).trans hn)
  · exact step_scan_quiet hrst' hp ((hs hp).trans hn)

/-! ## A core that waits (rules R34, R258) -/

/-- Without a reset, an idle core to which no command comes and a scanning core to which no symbol comes. -/
theorem step_waiting {s : State} (hr : ∀ e ∈ s.inputs, e.rst = false)
    (hw : (s.ph = .idle ∧ ∀ e ∈ s.inputs, e.cmd = none) ∨ (s.ph = .scan ∧ ∀ e ∈ s.inputs, e.sym = none)) :
    step s = .next s.advanceInputs := by
  have hrst := State.presented_rst_of_forall hr
  rcases hw with ⟨hp, hc⟩ | ⟨hp, hs⟩
  · exact step_idle_quiet hrst hp (State.presented_of_forall (P := (·.cmd = none)) rfl hc)
  · exact step_scan_quiet hrst hp (State.presented_of_forall (P := (·.sym = none)) rfl hs)

/-! ## A scan to which no END comes (rules R32, R257) -/

/-- The edge `e` neither resets the core nor delivers END. -/
def HostInput.keepsScan (e : HostInput) : Prop :=
  e.rst = false ∧ ∀ w, e.sym = some w → decodeSymbol w ≠ .endOfString

theorem step_scan_of_keepsScan {s : State} (hp : s.ph = .scan) (he : s.presented.keepsScan) :
    ∃ t, step s = .next t ∧ t.ph = .scan ∧ t.op = s.op ∧ t.inputs = s.inputs.tail := by
  obtain ⟨hr, hend⟩ := he
  cases hs : s.presented.sym with
  | none => exact ⟨_, step_scan_quiet hr hp hs, hp, rfl, rfl⟩
  | some w =>
    cases hw : decodeSymbol w with
    | ch b =>
      refine ⟨parserUpdate b s.advanceInputs, by rw [step_scan_symbol hr hp hs, hw]; rfl, ?_⟩
      rw [parserUpdate_frame]
      exact ⟨hp, rfl, rfl⟩
    | endOfString => exact absurd hw (hend w hs)

theorem steps_scan_of_keepsScan (n : Nat) {s : State} (h : s.Inv) (hp : s.ph = .scan)
    (he : ∀ e ∈ s.inputs, e.keepsScan) : ∃ t, steps n s = .next t ∧ t.Inv ∧ t.ph = .scan ∧ t.op = s.op := by
  induction n generalizing s with
  | zero => exact ⟨s, rfl, h, hp, rfl⟩
  | succ n ih =>
    obtain ⟨u, hu, hup, huop, hui⟩ :=
      step_scan_of_keepsScan hp (State.presented_of_forall (P := HostInput.keepsScan) ⟨rfl, nofun⟩ he)
    have hinv : u.Inv := stepKeepsTheInvariant s u h hu
    obtain ⟨t, ht, hti, htp, hto⟩ := ih hinv hup fun e hm => he e (List.mem_of_mem_tail (hui ▸ hm))
    exact ⟨t, (steps_succ n hu).trans ht, hti, htp, hto.trans huop⟩

end Sys2Proof.Machine
end

section
/-! The obligations of the reset and hazards family. -/

namespace Sys2Proof.Machine

/-- Settles O47, by induction on the number of edges: each is one at which nothing the core waits for comes. -/
theorem waitingCoreHoldsItsState : Obligations.WaitingCoreHoldsItsState := by
  intro s n hr hw
  induction n generalizing s with
  | zero => rfl
  | succ n ih =>
    have hlater {P : HostInput → Prop} (h : ∀ e ∈ s.inputs, P e) : ∀ e ∈ s.advanceInputs.inputs, P e :=
      fun e he => h e (List.mem_of_mem_tail he)
    rw [steps_succ n (step_waiting hr hw),
      ih s.advanceInputs (hlater hr) (hw.imp (And.imp_right hlater) (And.imp_right hlater)),
      State.advanceInputs, List.drop_tail]

/-- Settles O50: SCAN and OP stay as long as no END comes, and a command in progress shows no result. -/
theorem withoutEndTheScanNeverEnds : Obligations.WithoutEndTheScanNeverEnds := by
  intro s h hp he n
  obtain ⟨t, ht, hti, htp, hto⟩ := steps_scan_of_keepsScan n h hp he
  exact ⟨t, ht, htp, hto, hti.cleared (by simp [htp])⟩

/-- Settles O10: the edge gives every register its value in the reset state. -/
theorem resetEdgeClearsEverything : Obligations.ResetEdgeClearsEverything := by
  intro s e rest hi hr
  have hrst : s.presented.rst = true := by rwa [s.presented_cons hi]
  have hinputs : s.advanceInputs.resetRegisters.inputs = rest := congrArg List.tail hi
  exact ⟨_, step_of_rst hrst, hinputs, rfl, State.resetRegisters_cleared _,
    rfl, rfl, rfl, rfl, rfl, rfl, rfl, rfl, rfl, rfl, rfl, rfl, rfl⟩

/-- Settles O48: outside IDLE the command port is not read; in IDLE the edge is ACCEPT of the command. -/
theorem commandWhileBusyIsNotAccepted : Obligations.CommandWhileBusyIsNotAccepted := fun s e rest =>
  ⟨fun hp => step_facing_congr rest rfl (fun hidle => absurd hidle hp) fun _ => rfl,
    fun i hp hr hc => stepRunsThePresentedCommand (s.facing (e :: rest)) e rest i hp rfl hr hc⟩

/-- Settles O49: outside SCAN the symbol port is not read. -/
theorem symbolOutsideScanIsNotAccepted : Obligations.SymbolOutsideScanIsNotAccepted := fun _ _ rest hp =>
  step_facing_congr rest rfl (fun _ => rfl) fun hscan => absurd hscan hp

end Sys2Proof.Machine
end
